-- ==== Sys2Proof/Word.lean ====
section
/-! DEFINITION. The two bit-vector types of the block (spec/00_scope.md R7, R8): the 8-bit byte and the one-bit VCOM polarity.
Every quantity is unsigned (R8). Indices and counts are natural numbers (R8, R113), never bit vectors. -/

namespace Sys2Proof

/-- R8: "A byte is 8 bits, an unsigned value 0 to 255"; bit 7 is the most significant. -/
abbrev Byte := BitVec 8

/-- R7: the VCOM polarity is one bit of state. -/
abbrev Bit := BitVec 1

end Sys2Proof
end

