-- ==== Sys2Proof/Config.lean ====
section
/-! DEFINITION. What is fixed for the machine and what the spec leaves open: the constants of R5, the open and the decided
parameters of R6, and the values the environment draws (R10, R34) where no input names them. -/

namespace Sys2Proof

/-- R6 `ASYNC_SUBMIT_FAIL_CS`: what chip-select does when an asynchronous submission is rejected. -/
inductive FailCs where
  | deassert
  | hold
  deriving DecidableEq, Repr, Inhabited

/-- An electrical level, the type of R6 `CS_ACTIVE_LEVEL`. -/
inductive Level where
  | low
  | high
  deriving DecidableEq, Repr, Inhabited

/-- R5 `SPI_BIT_ORDER`: the order in which the transport clocks the bits of a byte. -/
inductive BitOrder where
  | msbFirst
  | lsbFirst
  deriving DecidableEq, Repr, Inhabited

/-- R145: the transport's answer to one blocking write, as the environment names it.
`returns k r`: the call returned the report `r` after clocking out `k` bytes.
`stalls k`: the call never returns after clocking out `k` bytes (R145 (e), R146, R210).
`txSent` (Machine/Operands.lean) makes every answer meet the contract of R145 (a) to (c). -/
inductive TxAnswer where
  | returns (k : Nat) (r : Int)
  | stalls (k : Nat)
  deriving DecidableEq, Repr, Inhabited

/-- R34, R225, R226: the answers the transport and the GPIO controller give to the calls of ONE host command.
A command reads only the answers to the calls it makes. -/
structure EnvAnswers where
  /-- R180 P1: the transport's `open` succeeds. -/
  openOk : Bool
  /-- R180 P2: the transport's `configure` succeeds. -/
  configOk : Bool
  /-- R180 P3: `claim(CS_PIN)` succeeds. -/
  claimCsOk : Bool
  /-- R180 P4: `claim(DISP_PIN)` succeeds. -/
  claimDispOk : Bool
  /-- R146: the answer to a blocking write. -/
  tx : TxAnswer
  /-- R152: the transport accepts the submission. -/
  accepted : Bool
  /-- R186 `m`: how far a cancelled transfer still runs. -/
  stopAt : Nat
  /-- R186 `late_sig`: the completion signal still arrives. -/
  lateSig : Bool
  deriving DecidableEq, Repr, Inhabited

namespace Config

/-- R5 `LINES`. -/
@[simp] abbrev lines : Nat := 240

/-- R5 `LINE_BYTES`. -/
@[simp] abbrev lineBytes : Nat := 50

/-- R5 `LINE_STRIDE`. -/
@[simp] abbrev lineStride : Nat := 52

/-- R5 `PIX_SIZE`. -/
@[simp] abbrev pixSize : Nat := 12000

/-- R5 `BUFF_SIZE`, as 90_conflicts.md C1 corrects it. -/
@[simp] abbrev buffSize : Nat := 12482

/-- R5 `CMD_WRITE`. -/
@[simp] abbrev cmdWrite : Byte := 0x80#8

/-- R5 `CMD_CLEAR`. -/
@[simp] abbrev cmdClear : Byte := 0x20#8

/-- R5 `VCOM_MASK`. -/
@[simp] abbrev vcomMask : Byte := 0x40#8

/-- R5 `CLEAR_LEN`. -/
@[simp] abbrev clearLen : Nat := 2

/-- R5 `T_SETTLE_US`. -/
@[simp] abbrev tSettleUs : Nat := 10

/-- R5 `T_HOLD_US`. -/
@[simp] abbrev tHoldUs : Nat := 5

/-- R5 `SPI_MODE`. -/
@[simp] abbrev spiMode : Nat := 0

/-- R5 `SPI_BITS_PER_WORD`. -/
@[simp] abbrev spiBitsPerWord : Nat := 8

/-- R5 `SPI_BIT_ORDER`. -/
@[simp] abbrev spiBitOrder : BitOrder := .msbFirst

/-- R6 `SPI_CLOCK_HZ`: OPEN (92_eei_decisions.md D8), a positive integer. -/
opaque spiClockHz : ℕ+

/-- R6 `T_DISP_SETTLE_US`: OPEN (D8), a non-negative integer. -/
opaque tDispSettleUs : Nat

/-- R6 `COMPLETION_TAG`: OPEN (D8). DESIGN CHOICE (log entry 9): the opaque value is carried as a natural number. -/
opaque completionTag : Nat

/-- R6 `CS_PIN`: OPEN (D8). DESIGN CHOICE (log entry 9): the opaque pin name is carried as a natural number. -/
opaque csPin : Nat

/-- R6 `DISP_PIN`: OPEN (D8). DESIGN CHOICE (log entry 9): the opaque pin name is carried as a natural number. -/
opaque dispPin : Nat

/-- R6 `CS_ACTIVE_LEVEL`: OPEN (D6). -/
opaque csActiveLevel : Level

/-- R6, R35 `V_RESET`: decided 1 (D5). -/
@[simp] abbrev vReset : Bit := 1#1

/-- R6, R153 `ASYNC_SUBMIT_FAIL_CS`: decided `deassert` (D9). -/
@[simp] abbrev asyncSubmitFailCs : FailCs := .deassert

/-- R10 `draw`: the answers of the environment to the n-th answered command, where the state's own list of answers
(`State.answers`) names none. A FREE VALUE: no body, so nothing can be proved of it (log entry 3). -/
opaque freeAnswers : Nat → EnvAnswers

end Config

end Sys2Proof
end

