-- ==== Sys2Proof/Syntax.lean ====
section
/-! DEFINITION. The commands of the block, one constructor per row of spec/opcode_table.json (30_encoding.md R81, R87, R96),
and the packets that carry them on the two ports the table's two formats belong to. -/

namespace Sys2Proof

/-- The `device_path` of INIT: opaque, "the block passes [it] unchanged to the transport's `open` and never inspects" it (R82).
DESIGN CHOICE (log entry 5): it is carried as the bytes of the host's operand. -/
abbrev Path := List Byte

/-- The pixel operand `PIX` (R52, R82): the bytes of the host's operand, line-major. Its length is checked by the command (R62). -/
abbrev Pixels := List Byte

/-- R81 (the six host commands, format HOSTCMD) and R87 to R89 (the two command bytes of the wire, format WIRECMD). -/
inductive Instr where
  /-- INIT, R180. -/
  | init (path : Path)
  /-- WRITE, R148. -/
  | write (pix : Pixels)
  /-- WRITE_ASYNC_BEGIN, R152. -/
  | writeAsyncBegin (pix : Pixels)
  /-- WRITE_ASYNC_END, R160. -/
  | writeAsyncEnd
  /-- CLEAR, R162. -/
  | clear
  /-- CLOSE, R186. -/
  | close
  /-- WIRE_FRAME_MODE, R88: the first byte of a FRAME transfer, with the VCOM bit it carries. -/
  | wireFrameMode (v : Bit)
  /-- WIRE_CLEAR, R89: the first byte of a CLEARSEQ transfer, with the VCOM bit it carries. -/
  | wireClear (v : Bit)
  deriving DecidableEq, Repr

/-- R50, R55, R56: where a word of the table stands. A HOSTCMD word stands on the host command port, with the operand its
operation takes (R80). A WIRECMD word stands on the SPI data output (R87, R96). -/
inductive Packet where
  | host (cw : Byte) (operand : List Byte)
  | wire (b : Byte)
  deriving DecidableEq, Repr

end Sys2Proof
end

