-- ==== Sys2Proof/WellFormed.lean ====
section
/-! DEFINITION. Which commands are well formed: the operand forms of 30_encoding.md R82 and the length precondition of
20_memory.md R62. A command that is not well formed still has an outcome, `F_BAD_PIXEL_LENGTH` (R205). -/

namespace Sys2Proof

/-- R62, R82: "one pixel array `PIX` of exactly `PIX_SIZE` = 12,000 bytes". -/
def Instr.wellFormed : Instr → Bool
  | .init _ => true
  | .write pix => pix.length == Config.pixSize
  | .writeAsyncBegin pix => pix.length == Config.pixSize
  | .writeAsyncEnd => true
  | .clear => true
  | .close => true
  | .wireFrameMode _ => true
  | .wireClear _ => true

/-- A write is well formed exactly when its operand has 12,000 bytes. -/
@[simp] theorem Instr.wellFormed_write (pix : Pixels) :
    (Instr.write pix).wellFormed = true ↔ pix.length = 12000 := by
  simp [Instr.wellFormed]

/-- A submission is well formed exactly when its operand has 12,000 bytes. -/
@[simp] theorem Instr.wellFormed_writeAsyncBegin (pix : Pixels) :
    (Instr.writeAsyncBegin pix).wellFormed = true ↔ pix.length = 12000 := by
  simp [Instr.wellFormed]

end Sys2Proof
end

