-- ==== Sys2Proof/Decode.lean ====
section
/-! DEFINITION. The decoder and, after it, the encoder: 30_encoding.md R80, R81, R84 (host command words), R87 to R89 and R94
(wire command bytes), R96 and spec/opcode_table.json (the rows). The decoder is total and rejects by name. -/

namespace Sys2Proof

/-- Why a packet is no command. -/
inductive DecodeError where
  /-- R84: `op` = 0b110 or 0b111, or `CW[7:3]` is not zero. -/
  | reservedOpcode (cw : Byte)
  /-- R56, R82: the operation takes no operand and the packet brings one. No such call exists in the spec (log entry 6). -/
  | operandNotTaken (cw : Byte)
  /-- R94: a byte the block never emits as a command byte. -/
  | neverEmitted (b : Byte)
  deriving DecidableEq, Repr

/-- One row of spec/opcode_table.json. -/
structure Row where
  mnemonic : String
  matchBits : Byte
  mask : Byte
  deriving DecidableEq, Repr

/-- The six rows of format HOSTCMD. -/
def hostRows : List Row :=
  [⟨"INIT", 0x00#8, 0xFF#8⟩, ⟨"WRITE", 0x01#8, 0xFF#8⟩, ⟨"WRITE_ASYNC_BEGIN", 0x02#8, 0xFF#8⟩,
   ⟨"WRITE_ASYNC_END", 0x03#8, 0xFF#8⟩, ⟨"CLEAR", 0x04#8, 0xFF#8⟩, ⟨"CLOSE", 0x05#8, 0xFF#8⟩]

/-- The two rows of format WIRECMD. -/
def wireRows : List Row :=
  [⟨"WIRE_FRAME_MODE", 0x80#8, 0xBF#8⟩, ⟨"WIRE_CLEAR", 0x20#8, 0xBF#8⟩]

/-- A byte belongs to a row when its masked bits are the row's. -/
def Row.covers (r : Row) (b : Byte) : Bool := b &&& r.mask == r.matchBits

/-- R80 `CW[7:3]`. -/
def cwZero (cw : Byte) : BitVec 5 := cw.extractLsb' 3 5

/-- R80 `CW[2:0]`. -/
def cwOp (cw : Byte) : BitVec 3 := cw.extractLsb' 0 3

/-- R56: the operation takes no operand; a packet that brings one is no call of the spec. -/
def decodeNoOperand (cw : Byte) (operand : List Byte) (i : Instr) : Except DecodeError Instr :=
  match operand with
  | [] => .ok i
  | _ :: _ => .error (.operandNotTaken cw)

/-- R80, R81, R84: the host command word and its operand. -/
def decodeHost (cw : Byte) (operand : List Byte) : Except DecodeError Instr :=
  match (cwZero cw).toNat, (cwOp cw).toNat with
  | 0, 0 => .ok (.init operand)
  | 0, 1 => .ok (.write operand)
  | 0, 2 => .ok (.writeAsyncBegin operand)
  | 0, 3 => decodeNoOperand cw operand .writeAsyncEnd
  | 0, 4 => decodeNoOperand cw operand .clear
  | 0, 5 => decodeNoOperand cw operand .close
  | _, _ => .error (.reservedOpcode cw)

/-- R87 `VC`: bit 6 of a command byte. -/
def wireVc (b : Byte) : Bit := b.extractLsb' 6 1

/-- R87, R94: the command byte of a transfer, `1V000000` or `0V100000`. -/
def decodeWire (b : Byte) : Except DecodeError Instr :=
  if b &&& 0xBF#8 = 0x80#8 then .ok (.wireFrameMode (wireVc b))
  else if b &&& 0xBF#8 = 0x20#8 then .ok (.wireClear (wireVc b))
  else .error (.neverEmitted b)

/-- The decoder, total on every packet. -/
def decode : Packet → Except DecodeError Instr
  | .host cw operand => decodeHost cw operand
  | .wire b => decodeWire b

/-- R7, R87: the VCOM bit at its place in a command byte, `V << 6`. -/
def vcomBits (v : Bit) : Byte := v.setWidth 8 <<< 6

/-- The words of a command (R81, R88, R89). -/
def encode : Instr → Packet
  | .init path => .host 0x00#8 path
  | .write pix => .host 0x01#8 pix
  | .writeAsyncBegin pix => .host 0x02#8 pix
  | .writeAsyncEnd => .host 0x03#8 []
  | .clear => .host 0x04#8 []
  | .close => .host 0x05#8 []
  | .wireFrameMode v => .wire (0x80#8 ||| vcomBits v)
  | .wireClear v => .wire (0x20#8 ||| vcomBits v)

/-- The operand of zeros that a table word stands with: 12,000 zero bytes for the two commands that take `PIX` (R82), and
nothing for INIT, whose operand is opaque, and for the commands that take none. DESIGN CHOICE (log entry 16). -/
def zeroOperand (cw : Byte) : List Byte :=
  if cw = 0x01#8 ∨ cw = 0x02#8 then List.replicate Config.pixSize 0x00#8 else []

/-- R96: a word of spec/opcode_table.json on the port of its row's format. A word of a WIRECMD row stands on the wire; every
other word stands on the host command port. DESIGN CHOICE (log entry 16). -/
def tablePacket (w : Nat) : Packet :=
  let b := BitVec.ofNat 8 w
  if wireRows.any (·.covers b) then .wire b else .host b (zeroOperand b)

/-- The instruction the decoder reads from a word of the table. Every row of the table is one byte wide. -/
def decodeTableWord (nbits w : Nat) : Option Instr :=
  if nbits = 8 ∧ w < 256 then (decode (tablePacket w)).toOption else none

end Sys2Proof
end

