-- ==== Sys2Proof/Machine/State.lean ====
section
/-! DEFINITION. The state of the block as plain data (10_state.md R20 to R35), the reasons a step can stop, and the power-on
state (R35, R240). -/

namespace Sys2Proof.Machine

/-- R21 `LIFE`. -/
inductive Life where
  | closed
  | opened
  deriving DecidableEq, Repr

/-- R25 `SLOT`. -/
inductive Slot where
  | empty
  | inFlight
  | done
  deriving DecidableEq, Repr

/-- R29 `CS`. -/
inductive CsLine where
  | unclaimed
  | deasserted
  | asserted
  deriving DecidableEq, Repr

/-- R30 `DISP`. -/
inductive DispLine where
  | unclaimed
  | low
  | high
  deriving DecidableEq, Repr

/-- R31: the kinds of bus event. -/
inductive Event where
  | tOpen (path : Path)
  | tConfig (mode bitsPerWord : Nat) (order : BitOrder) (clockHz : Nat)
  | gClaim (pin : Nat)
  | dispLow
  | dispHigh
  | csAssert
  | csDeassert
  | wait (us : Nat)
  | tx (b : Byte)
  | tSubmit (n tag : Nat)
  | sig (tag : Nat)
  | tCancel
  | tClose
  deriving DecidableEq, Repr

/-- R205: the names the element `FAULT` can hold. -/
inductive FaultName where
  | notOpen
  | alreadyOpen
  | busy
  | endBeforeDone
  | endNoTransfer
  | badPixelLength
  | reservedOpcode
  deriving DecidableEq, Repr

/-- R83, R200: the statuses a command returns to the host. -/
inductive Status where
  | ok
  | setupError
  | shortWriteError
  | asyncSubmitError
  deriving DecidableEq, Repr

/-- The sequencer's position in a command's step list (R26, R27 (b)), the MODEL's own element (log entry 4).
Between commands it is `idle`, or `stalled` after a blocking transfer that never returned (R146, R210).
`frameReady` and `clearReady` stand between CS_ASSERT and TX_BLOCKING of WRITE and of CLEAR: the next byte out is the
command byte of the transfer. No step of the host stops there. -/
inductive Seq where
  | idle
  | frameReady
  | clearReady
  | stalled
  deriving DecidableEq, Repr

/-- R13, R155, R216: the next whole step and the agent that takes it, the MODEL's own input (log entry 2).
`cmd p`: the word of the packet `p` on its port (a host command, or the command byte of a transfer).
`engineByte`, `engineDone`: a step of the asynchronous transfer engine (R156, R157). -/
inductive Move where
  | cmd (p : Packet)
  | engineByte
  | engineDone
  deriving DecidableEq, Repr

/-- The contents of `WFB` (R23, R51) as address and byte pairs in one canonical form: addresses strictly rising, no byte
equal to `Memory.unlisted` (`Memory.wf`, Machine/Ops.lean). -/
abbrev Memory := List Host.Cell

/-- Why a step cannot be taken at all.
Both reasons are the spec's own (R32, R146), and both are safe: nothing is claimed of a run that goes on from there. -/
inductive Fault where
  /-- Raised by every step from a state whose `FAULT` is set: "once it is set no further command or engine step is defined"
  (R32). Safe. -/
  | afterFault (name : FaultName)
  /-- Raised by every step after a blocking transfer that never returns: "no further step of the host or sequencer" (R146,
  R210, U7 `stuck`). Safe. -/
  | transferStalled
  deriving DecidableEq, Repr

/-- Why a step has no meaning.
Every reason is safe: the model says nothing of the case. -/
inductive Refusal where
  /-- An instruction with no meaning yet. No arm of `exec` raises it. Safe. -/
  | notModelled (mnemonic : String)
  /-- Raised by a host command issued while another is inside its step list: "two commands never overlap" (R74, U11 `refuse`).
  Safe. -/
  | concurrentCommand
  /-- Raised by a host packet that brings an operand to an operation that takes none (R56, R82). Safe. -/
  | operandNotTaken
  /-- Raised by WIRE_FRAME_MODE and WIRE_CLEAR where that byte is not the next byte the block emits (R94, R156). Safe. -/
  | wireByteNotDue
  /-- Raised by a wire packet whose byte the block never emits as a command byte (R94, U17 `refuse`). Safe. -/
  | wireByteNeverEmitted
  /-- Raised by an engine move while the engine has no such step enabled (R156, R157). Safe. -/
  | engineStepNotEnabled
  deriving DecidableEq, Repr

/-- Everything the spec gives the block (R20), the responses of the host command port (R56, R200), and the model's own
elements: the sequencer's position and the inputs of the environment. -/
structure State where
  /-- R21 `LIFE`. -/
  life : Life
  /-- R22 `V`. -/
  v : Bit
  /-- R23 `WFB`. -/
  wfb : Memory
  /-- R25 `SLOT`. -/
  slot : Slot
  /-- R28 `TXI`. -/
  txi : Nat
  /-- R29 `CS`. -/
  cs : CsLine
  /-- R30 `DISP`. -/
  disp : DispLine
  /-- R31 `TRACE`, oldest event first. -/
  trace : List Event
  /-- R32 `FAULT`. -/
  fault : Option FaultName
  /-- R56, R83, R200: the statuses returned on the host command port, oldest first. DESIGN CHOICE (log entry 10): all of them
are kept. -/
  responses : List Status
  /-- The MODEL's own: the sequencer's position (log entry 4). -/
  seq : Seq
  /-- The MODEL's own: the steps the agents take next, first one first (log entry 2). -/
  agenda : List Move
  /-- The MODEL's own: the environment's answers to the next answered commands, first one first (log entry 3). -/
  answers : List EnvAnswers
  /-- The MODEL's own: how many commands the environment has answered; the argument of `Config.freeAnswers` (log entry 3). -/
  draws : Nat
  deriving DecidableEq, Repr

/-- R35, R240: the power-on state, "with `V_RESET`, the power-on contents of `WFB`, and the open parameters [...] as its
arguments"; the open parameters are constants of Config. -/
def State.powerOn (vReset : Bit) (wfb : Memory) : State where
  life := .closed
  v := vReset
  wfb := wfb
  slot := .empty
  txi := 0
  cs := .unclaimed
  disp := .unclaimed
  trace := []
  fault := none
  responses := []
  seq := .idle
  agenda := []
  answers := []
  draws := 0

/-- R35: the machine right after power-on. DESIGN CHOICE (log entry 1): `WFB`, whose power-on contents the spec leaves
unspecified, lists nothing. -/
def State.reset : State := State.powerOn Config.vReset []

end Sys2Proof.Machine
end

