-- ==== Sys2Proof/Machine/Operands.lean ====
section
/-! DEFINITION. Operand and address computations: the bit-reversal table (40_frame_encoder.md R110), the two effective
addresses (R118), the bytes of a line record (R90, R91), the two wire formats (30_encoding.md R86, R89), the order of bytes
and bits on the wire (20_memory.md R57, R58), and what a drawn answer means (R145, R186). -/

namespace Sys2Proof.Machine

/-- R9, R110: `rev8(b)`, the byte whose bit `i` is bit `7 - i` of `b`. The list holds bit 0 of `b` first, and the first
element of the list is the most significant bit of the result. -/
def rev8 (b : Byte) : Byte :=
  BitVec.ofBoolListBE [b.getLsbD 0, b.getLsbD 1, b.getLsbD 2, b.getLsbD 3, b.getLsbD 4, b.getLsbD 5, b.getLsbD 6, b.getLsbD 7]

/-! R110: the rows of the bit-reversal table, row `H` holding the entries `0xH0` to `0xHF`. -/

def bitrevRow0 : List Byte :=
  [0x00#8, 0x80#8, 0x40#8, 0xC0#8, 0x20#8, 0xA0#8, 0x60#8, 0xE0#8,
   0x10#8, 0x90#8, 0x50#8, 0xD0#8, 0x30#8, 0xB0#8, 0x70#8, 0xF0#8]

def bitrevRow1 : List Byte :=
  [0x08#8, 0x88#8, 0x48#8, 0xC8#8, 0x28#8, 0xA8#8, 0x68#8, 0xE8#8,
   0x18#8, 0x98#8, 0x58#8, 0xD8#8, 0x38#8, 0xB8#8, 0x78#8, 0xF8#8]

def bitrevRow2 : List Byte :=
  [0x04#8, 0x84#8, 0x44#8, 0xC4#8, 0x24#8, 0xA4#8, 0x64#8, 0xE4#8,
   0x14#8, 0x94#8, 0x54#8, 0xD4#8, 0x34#8, 0xB4#8, 0x74#8, 0xF4#8]

def bitrevRow3 : List Byte :=
  [0x0C#8, 0x8C#8, 0x4C#8, 0xCC#8, 0x2C#8, 0xAC#8, 0x6C#8, 0xEC#8,
   0x1C#8, 0x9C#8, 0x5C#8, 0xDC#8, 0x3C#8, 0xBC#8, 0x7C#8, 0xFC#8]

def bitrevRow4 : List Byte :=
  [0x02#8, 0x82#8, 0x42#8, 0xC2#8, 0x22#8, 0xA2#8, 0x62#8, 0xE2#8,
   0x12#8, 0x92#8, 0x52#8, 0xD2#8, 0x32#8, 0xB2#8, 0x72#8, 0xF2#8]

def bitrevRow5 : List Byte :=
  [0x0A#8, 0x8A#8, 0x4A#8, 0xCA#8, 0x2A#8, 0xAA#8, 0x6A#8, 0xEA#8,
   0x1A#8, 0x9A#8, 0x5A#8, 0xDA#8, 0x3A#8, 0xBA#8, 0x7A#8, 0xFA#8]

def bitrevRow6 : List Byte :=
  [0x06#8, 0x86#8, 0x46#8, 0xC6#8, 0x26#8, 0xA6#8, 0x66#8, 0xE6#8,
   0x16#8, 0x96#8, 0x56#8, 0xD6#8, 0x36#8, 0xB6#8, 0x76#8, 0xF6#8]

def bitrevRow7 : List Byte :=
  [0x0E#8, 0x8E#8, 0x4E#8, 0xCE#8, 0x2E#8, 0xAE#8, 0x6E#8, 0xEE#8,
   0x1E#8, 0x9E#8, 0x5E#8, 0xDE#8, 0x3E#8, 0xBE#8, 0x7E#8, 0xFE#8]

def bitrevRow8 : List Byte :=
  [0x01#8, 0x81#8, 0x41#8, 0xC1#8, 0x21#8, 0xA1#8, 0x61#8, 0xE1#8,
   0x11#8, 0x91#8, 0x51#8, 0xD1#8, 0x31#8, 0xB1#8, 0x71#8, 0xF1#8]

def bitrevRow9 : List Byte :=
  [0x09#8, 0x89#8, 0x49#8, 0xC9#8, 0x29#8, 0xA9#8, 0x69#8, 0xE9#8,
   0x19#8, 0x99#8, 0x59#8, 0xD9#8, 0x39#8, 0xB9#8, 0x79#8, 0xF9#8]

def bitrevRowA : List Byte :=
  [0x05#8, 0x85#8, 0x45#8, 0xC5#8, 0x25#8, 0xA5#8, 0x65#8, 0xE5#8,
   0x15#8, 0x95#8, 0x55#8, 0xD5#8, 0x35#8, 0xB5#8, 0x75#8, 0xF5#8]

def bitrevRowB : List Byte :=
  [0x0D#8, 0x8D#8, 0x4D#8, 0xCD#8, 0x2D#8, 0xAD#8, 0x6D#8, 0xED#8,
   0x1D#8, 0x9D#8, 0x5D#8, 0xDD#8, 0x3D#8, 0xBD#8, 0x7D#8, 0xFD#8]

def bitrevRowC : List Byte :=
  [0x03#8, 0x83#8, 0x43#8, 0xC3#8, 0x23#8, 0xA3#8, 0x63#8, 0xE3#8,
   0x13#8, 0x93#8, 0x53#8, 0xD3#8, 0x33#8, 0xB3#8, 0x73#8, 0xF3#8]

def bitrevRowD : List Byte :=
  [0x0B#8, 0x8B#8, 0x4B#8, 0xCB#8, 0x2B#8, 0xAB#8, 0x6B#8, 0xEB#8,
   0x1B#8, 0x9B#8, 0x5B#8, 0xDB#8, 0x3B#8, 0xBB#8, 0x7B#8, 0xFB#8]

def bitrevRowE : List Byte :=
  [0x07#8, 0x87#8, 0x47#8, 0xC7#8, 0x27#8, 0xA7#8, 0x67#8, 0xE7#8,
   0x17#8, 0x97#8, 0x57#8, 0xD7#8, 0x37#8, 0xB7#8, 0x77#8, 0xF7#8]

def bitrevRowF : List Byte :=
  [0x0F#8, 0x8F#8, 0x4F#8, 0xCF#8, 0x2F#8, 0xAF#8, 0x6F#8, 0xEF#8,
   0x1F#8, 0x9F#8, 0x5F#8, 0xDF#8, 0x3F#8, 0xBF#8, 0x7F#8, 0xFF#8]

/-- R33, R110: the 256-entry read-only table `BITREV`. -/
def bitrevTable : List Byte :=
  bitrevRow0 ++ bitrevRow1 ++ bitrevRow2 ++ bitrevRow3 ++ bitrevRow4 ++ bitrevRow5 ++ bitrevRow6 ++ bitrevRow7 ++
  bitrevRow8 ++ bitrevRow9 ++ bitrevRowA ++ bitrevRowB ++ bitrevRowC ++ bitrevRowD ++ bitrevRowE ++ bitrevRowF

/-- R10, R53: `BITREV[b]`. -/
def bitrev (b : Byte) : Byte := bitrevTable.getD b.toNat 0x00#8

/-- R118 `EA_adr(L)`: where the address byte of line `l` stands in `WFB`. -/
def eaAdr (l : Nat) : Nat := 1 + Config.lineStride * l

/-- R118 `EA_dst(L, j)`: where data byte `j` of line `l` stands in `WFB`. -/
def eaDst (l j : Nat) : Nat := 1 + Config.lineStride * l + 1 + j

/-- R118 `EA_src(L, j)`: where pixel byte `j` of line `l` stands in `PIX`. -/
def eaSrc (l j : Nat) : Nat := Config.lineBytes * l + j

/-- R66: where the gap byte of line `l` stands in `WFB`. -/
def eaGap (l : Nat) : Nat := 1 + Config.lineStride * l + 51

/-- R66: where the mode byte stands in `WFB`. -/
def eaMode : Nat := 0

/-- R66: where the final byte stands in `WFB`. -/
def eaFinal : Nat := Config.buffSize - 1

/-- R90: the address byte of line `l` is `BITREV[l + 1]`. -/
def addressByte (l : Nat) : Byte := bitrev (BitVec.ofNat 8 (l + 1))

/-- R91: "the stored and transmitted byte is the bitwise complement of the caller's byte". -/
def dataByte (p : Byte) : Byte := ~~~p

/-- R10 `PIX[k]`. -/
def pixAt (pix : Pixels) (k : Nat) : Byte := pix.getD k 0x00#8

/-- R7, R131: `cmd_byte = base | (V << 6)`. -/
def commandByte (base : Byte) (v : Bit) : Byte := base ||| vcomBits v

/-- R54, R89: the 2-byte sequence `CLR`, format CLEARSEQ. -/
def clearSeq (v : Bit) : List Byte := [commandByte Config.cmdClear v, 0x00#8]

/-- R86: the value the format FRAME gives to offset `a` of the frame of the pixels `pix` with the VCOM bit `v`.
It is written from the layout table and is used by no meaning. -/
def frameByte (v : Bit) (pix : Pixels) (a : Nat) : Byte :=
  if a = 0 then 0x80#8 ||| vcomBits v
  else if (a - 1) % 52 = 0 ∧ a < 12481 then rev8 (BitVec.ofNat 8 ((a - 1) / 52 + 1))
  else if (a - 1) % 52 ≤ 50 ∧ a < 12481 then ~~~ pixAt pix (50 * ((a - 1) / 52) + ((a - 1) % 52 - 1))
  else 0x00#8

/-- R86: the whole frame, format FRAME, 12,482 bytes in wire order (R57). -/
def frameOf (v : Bit) (pix : Pixels) : List Byte := (List.range 12482).map (frameByte v pix)

/-- R58: the bits of a byte in the order in which they are clocked out, bit 7 first. -/
def wireBits (b : Byte) : List Bool :=
  [b.getLsbD 7, b.getLsbD 6, b.getLsbD 5, b.getLsbD 4, b.getLsbD 3, b.getLsbD 2, b.getLsbD 1, b.getLsbD 0]

/-- R57, R58, R93: the bits of a run of bytes in the order in which they are clocked out. -/
def wireStream (bs : List Byte) : List Bool := bs.flatMap wireBits

/-- R145 (a) to (c): how many bytes of a blocking write of `n` bytes really reach the wire. A full report means all of them;
after any other report, and in a stall, the environment names the number, at most `n`. DESIGN CHOICE (log entry 11): a larger number is read as `n`. -/
def txSent (n : Nat) : TxAnswer → Nat
  | .returns k r => if r = n then n else min k n
  | .stalls k => min k n

/-- R186: `draw m with TXI <= m <= 12482`, from the number the environment names. DESIGN CHOICE (log entry 11): a number
outside the range is read as its nearer end. -/
def stopPoint (txi m : Nat) : Nat := max txi (min m Config.buffSize)

/-- R83 HOSTSTATUS: the 3-bit code of a status. -/
def statusCode : Status → BitVec 3
  | .ok => 0#3
  | .setupError => 1#3
  | .shortWriteError => 2#3
  | .asyncSubmitError => 3#3

/-- The calls of the GPIO controller after a claim (R226). -/
inductive GpioCall where
  | set (pin : Nat)
  | clear (pin : Nat)
  deriving DecidableEq, Repr

/-- R226: `set` is high and `clear` is low. -/
def gpioAtLevel (pin : Nat) : Level → GpioCall
  | .high => .set pin
  | .low => .clear pin

/-- The other level. -/
def otherLevel : Level → Level
  | .low => .high
  | .high => .low

/-- R29, R226: the GPIO call an event on one of the two lines stands for. Which level asserts chip-select is the open
parameter `CS_ACTIVE_LEVEL`. DEDUCED (log entry 17): the call is read off the event and not kept beside it. -/
def gpioCall : Event → Option GpioCall
  | .csAssert => some (gpioAtLevel Config.csPin Config.csActiveLevel)
  | .csDeassert => some (gpioAtLevel Config.csPin (otherLevel Config.csActiveLevel))
  | .dispLow => some (gpioAtLevel Config.dispPin .low)
  | .dispHigh => some (gpioAtLevel Config.dispPin .high)
  | _ => none

end Sys2Proof.Machine
end

