-- ==== Sys2Proof/Machine/Flags.lean ====
section
/-! DEFINITION. The block's only flag, the VCOM polarity bit `V` (10_state.md R22, R39), and what is computed from it
(41_vcom_sequencer.md R130, R131). -/

namespace Sys2Proof.Machine

/-- R112 (c), R130: `V ^ 1`. -/
def toggled (v : Bit) : Bit := v ^^^ 1#1

/-- R130 VCOM_TOGGLE: `V <- V ^ 1`, and nothing else. -/
def State.vcomToggle (s : State) : State := { s with v := toggled s.v }

/-- R88, R131: the mode byte of a frame, from the present `V`. -/
def State.modeByte (s : State) : Byte := commandByte Config.cmdWrite s.v

end Sys2Proof.Machine
end

