-- ==== Sys2Proof/Machine/Ops.lean ====
section
/-! DEFINITION. The named operations over `WFB`, the lines, the trace, the draws and the host port, and the two ways a command
ends other than in a status: the fault step (60_exceptions.md R205) and the hang (R146, R210). The block has no exception
entry and no return from one: "'Trap entry' has no analogue" (R217), "'Trap return' and nesting have no analogue" (R218).
What stands in their place is `State.raise`, and the status that `State.respond` returns. -/

namespace Sys2Proof.Machine

/-! ### `WFB` -/

/-- What an address that is not listed reads as. DESIGN CHOICE (log entry 1): 0x00, the value INIT's zero fill gives to every
byte (R180). Before the first INIT the spec leaves the contents unspecified (R35), and nothing reads them. -/
def Memory.unlisted : Byte := 0x00#8

/-- The canonical form of `WFB`: addresses strictly rising and below 12,482 (R51), no byte equal to an unlisted one. -/
abbrev Memory.wf (m : Memory) : Prop :=
  m.Pairwise (fun c d => c.1 < d.1) ∧ ∀ c ∈ m, c.2 ≠ Memory.unlisted ∧ c.1 < Config.buffSize

/-- R10 `WFB[i]`. DESIGN CHOICE (log entry 19): an address outside the buffer, which no rule names, reads as an unlisted one. -/
def Memory.read (m : Memory) (a : Nat) : Byte := (m.lookup a).getD Memory.unlisted

/-- The entry a byte at an address needs: none where it equals an unlisted byte. -/
def Memory.cell (a : Nat) (b : Byte) : Memory := if b = Memory.unlisted then [] else [(a, b)]

/-- R10 `WFB[i] <- v`. -/
def Memory.write (m : Memory) (a : Nat) (b : Byte) : Memory :=
  m.takeWhile (fun c => decide (c.1 < a)) ++ Memory.cell a b ++ m.dropWhile (fun c => decide (c.1 ≤ a))

/-- Single-byte stores at strictly rising addresses, in order, in one pass over the memory.
On a memory in canonical form it is the same as `Memory.write` store by store (`Memory.writeAll_eq_foldl`, Laws). -/
def Memory.writeAll : List Host.Cell → Memory → Memory
  | [], m => m
  | (a, b) :: rest, m =>
    m.takeWhile (fun c => decide (c.1 < a)) ++ Memory.cell a b ++
      Memory.writeAll rest (m.dropWhile (fun c => decide (c.1 ≤ a)))

/-- The bytes of `n` addresses from `a` upward, of a memory whose addresses are all at least `a`. -/
def Memory.bytesFrom : Memory → Nat → Nat → List Byte
  | _, _, 0 => []
  | [], a, n + 1 => Memory.unlisted :: Memory.bytesFrom [] (a + 1) n
  | (a', b) :: rest, a, n + 1 =>
    if a' = a then b :: Memory.bytesFrom rest (a + 1) n
    else Memory.unlisted :: Memory.bytesFrom ((a', b) :: rest) (a + 1) n

/-- The bytes `WFB[a]` to `WFB[a + n - 1]` in ascending address order (R57).
On a memory in canonical form it is `Memory.read` address by address (`Memory.slice_eq_map_read`, Laws). -/
def Memory.slice (m : Memory) (a n : Nat) : List Byte :=
  Memory.bytesFrom (m.dropWhile (fun c => decide (c.1 < a))) a n

/-- R57: the whole buffer in wire order. -/
def Memory.frame (m : Memory) : List Byte := Memory.slice m 0 Config.buffSize

/-- R180: `for i in 0 .. 12481: WFB[i] <- 0x00`. Every byte is then the unlisted one. -/
def Memory.zeroed : Memory := []

/-! ### ENCODE (R114) -/

/-- R114: the stores of one line, its address byte and then its data bytes. -/
def lineStores (l : Nat) (row : List Byte) : List Host.Cell :=
  (eaAdr l, addressByte l) :: row.zipIdx.map (fun pj => (eaDst l pj.2, dataByte pj.1))

/-- R114: the stores of `n` lines from line `l` upward, of the pixels from `PIX[50 * l]` upward. -/
def encodeStoresFrom : Nat → Nat → Pixels → List Host.Cell
  | 0, _, _ => []
  | n + 1, l, pix =>
    lineStores l (pix.take Config.lineBytes) ++ encodeStoresFrom n (l + 1) (pix.drop Config.lineBytes)

/-- R114: the 12,240 stores of ENCODE in the order of its pseudocode. -/
def encodeStores (pix : Pixels) : List Host.Cell := encodeStoresFrom Config.lines 0 pix

/-- R114 ENCODE. -/
def encodeInto (pix : Pixels) (m : Memory) : Memory := Memory.writeAll (encodeStores pix) m

/-- R132: the mode-byte store, `WFB[0] <- 0x80 | (V << 6)`. -/
def State.storeModeByte (s : State) : State := { s with wfb := s.wfb.write eaMode s.modeByte }

/-- R114 ENCODE as a step of a command. -/
def State.encodeFrame (pix : Pixels) (s : State) : State := { s with wfb := encodeInto pix s.wfb }

/-! ### Trace, responses, faults, draws -/

/-- R10 `emit`, for a run of events. -/
def State.emit (es : List Event) (s : State) : State := { s with trace := s.trace ++ es }

/-- R10 `return`, R200: the command ends with a status, which goes to the host (R56). -/
def State.respond (st : Status) (s : State) : State := { s with responses := s.responses ++ [st] }

/-- R205: `fault <name>` "sets `FAULT <- <name>` if `FAULT = none`, changes nothing else". It returns no status.
DEDUCED (log entry 8): a fault step is a step with a next state, and it is the state after it that has no step. -/
def State.raise (f : FaultName) (s : State) : State :=
  { s with fault := match s.fault with | none => some f | some g => some g }

/-- The environment's answers to the calls of one command (R34): the first ones the input names, or, where it names none, free
values that depend on how many commands have been answered. -/
def drawAnswers (named : List EnvAnswers) (draws : Nat) : EnvAnswers :=
  match named with
  | a :: _ => a
  | [] => Config.freeAnswers draws

/-- The environment's answers to the calls of the present command (R34). -/
def State.nextAnswers (s : State) : EnvAnswers := drawAnswers s.answers s.draws

/-- The answers have been used. DESIGN CHOICE (log entry 12): one record serves all the calls of one command. -/
def State.consumeAnswers (s : State) : State := { s with answers := s.answers.tail, draws := s.draws + 1 }

/-! ### Chip-select bracket and blocking transmit -/

/-- R142 CS_ASSERT. -/
def State.csAssertStep (s : State) : State :=
  { s with cs := .asserted, trace := s.trace ++ [.csAssert, .wait Config.tSettleUs] }

/-- R143 CS_DEASSERT. -/
def State.csDeassertStep (s : State) : State :=
  { s with cs := .deasserted, trace := s.trace ++ [.wait Config.tHoldUs, .csDeassert] }

/-- How a blocking write ends. -/
inductive TxResult where
  | returned (r : Int)
  | hung
  deriving DecidableEq, Repr

/-- R145: the report of a blocking write, or none where it never returns. -/
def txResult : TxAnswer → TxResult
  | .returns _ r => .returned r
  | .stalls _ => .hung

/-- R146 TX_BLOCKING(buf, n), its effect on the trace: the first `k` bytes of `buf` in order. -/
def State.txBlocking (buf : List Byte) (n : Nat) (s : State) : State :=
  (s.emit ((buf.take (txSent n s.nextAnswers.tx)).map .tx)).consumeAnswers

/-! ### Legality and the host port -/

/-- The six operations of R3. -/
inductive HostOp where
  | init
  | write
  | writeAsyncBegin
  | writeAsyncEnd
  | clear
  | close
  deriving DecidableEq, Repr

/-- R141, R206: the check of (`LIFE`, `SLOT`). `none` is the table's "ok". `LIFE` is read first.
DEDUCED (log entry 18): the unreachable pairs with `Closed` follow that order. -/
def legality (op : HostOp) (life : Life) (slot : Slot) : Option FaultName :=
  match op, life, slot with
  | .init, .closed, _ => none
  | .init, .opened, _ => some .alreadyOpen
  | .write, .closed, _ => some .notOpen
  | .write, .opened, .empty => none
  | .write, .opened, _ => some .busy
  | .writeAsyncBegin, .closed, _ => some .notOpen
  | .writeAsyncBegin, .opened, .empty => none
  | .writeAsyncBegin, .opened, _ => some .busy
  | .writeAsyncEnd, .closed, _ => some .notOpen
  | .writeAsyncEnd, .opened, .empty => some .endNoTransfer
  | .writeAsyncEnd, .opened, .inFlight => some .endBeforeDone
  | .writeAsyncEnd, .opened, .done => none
  | .clear, .closed, _ => some .notOpen
  | .clear, .opened, .empty => none
  | .clear, .opened, _ => some .busy
  | .close, .closed, _ => some .notOpen
  | .close, .opened, _ => none

/-- R32, R146: no step of any agent is defined once `FAULT` is set, and none is taken after a transfer that never returns. -/
def whenRunning (s : State) (k : Host.Outcome State Fault Refusal) : Host.Outcome State Fault Refusal :=
  match s.fault with
  | some f => .fault (.afterFault f)
  | none =>
    match s.seq with
    | .stalled => .fault .transferStalled
    | _ => k

/-- R11, R74: the host command port takes a command only between commands. DEDUCED (log entry 14): neither does the engine
take a step inside one. -/
def atHostPort (s : State) (k : Host.Outcome State Fault Refusal) : Host.Outcome State Fault Refusal :=
  whenRunning s
    (match s.seq with
     | .idle => k
     | _ => .refused .concurrentCommand)

/-- R141, R215: a host command checks (`LIFE`, `SLOT`) before any other step and then runs its step list. -/
def hostCommand (op : HostOp) (body : State → State) (s : State) : Host.Outcome State Fault Refusal :=
  atHostPort s
    (match legality op s.life s.slot with
     | some f => .next (s.raise f)
     | none => .next (body s))

/-- R62, R119, R215: the operand check of the two commands that take pixels, ahead of every state change. -/
def withPixels (pix : Pixels) (body : State → State) (s : State) : State :=
  if pix.length = Config.pixSize then body s else s.raise .badPixelLength

end Sys2Proof.Machine
end

