-- ==== Sys2Proof/Machine/Lifecycle.lean ====
section
/-! DEFINITION. The two commands of the lifecycle controller, 43_lifecycle.md: INIT (R180 to R182) and CLOSE (R186 to R188). -/

namespace Sys2Proof.Machine

/-- R180: the display-enable pulse, and the block is open. -/
def State.initPowerOn (s : State) : State :=
  ({ s.emit [.dispLow, .wait Config.tDispSettleUs, .dispHigh] with disp := .high, life := .opened }).respond .ok

/-- R180: the display-enable line is claimed; failure point P4. -/
def State.initClaimDisp (a : EnvAnswers) (s : State) : State :=
  let s1 := s.emit [.gClaim Config.dispPin]
  if a.claimDispOk then s1.initPowerOn else s1.respond .setupError

/-- R180: the chip-select line is claimed (failure point P3) and then driven to `Deasserted`. -/
def State.initClaimCs (a : EnvAnswers) (s : State) : State :=
  let s1 := s.emit [.gClaim Config.csPin]
  if a.claimCsOk then ({ s1.emit [.csDeassert] with cs := .deasserted }).initClaimDisp a
  else s1.respond .setupError

/-- R180: the transport is configured (failure point P2) and then `WFB` is zero-filled. -/
def State.initConfigure (a : EnvAnswers) (s : State) : State :=
  let s1 := s.emit [.tConfig Config.spiMode Config.spiBitsPerWord Config.spiBitOrder Config.spiClockHz]
  if a.configOk then ({ s1 with wfb := Memory.zeroed }).initClaimCs a else s1.respond .setupError

/-- R180: the transport is opened; failure point P1. -/
def State.initOpen (path : Path) (a : EnvAnswers) (s : State) : State :=
  let s1 := s.emit [.tOpen path]
  if a.openOk then s1.initConfigure a else s1.respond .setupError

/-- R180: the step list of INIT after its check. -/
def State.initSteps (path : Path) (s : State) : State := (s.consumeAnswers).initOpen path s.nextAnswers

/-- INIT, R180. -/
def execInit (path : Path) (s : State) : Host.Outcome State Fault Refusal :=
  hostCommand .init (State.initSteps path) s

/-- R186: the bytes and the signal a cancelled transfer still puts out, up to the drawn point. -/
def State.cancelledRun (s : State) : State :=
  (s.emit ((s.wfb.slice s.txi (stopPoint s.txi s.nextAnswers.stopAt - s.txi)).map .tx ++
    (if s.nextAnswers.lateSig then [.sig Config.completionTag] else []))).consumeAnswers

/-- R186: the cancellation of an outstanding transfer; "the cancel's own outcome is ignored". -/
def State.cancelOutstanding (s : State) : State :=
  match s.slot with
  | .empty => s
  | .inFlight => { (s.emit [.tCancel]).cancelledRun with slot := .empty }
  | .done => { s.emit [.tCancel] with slot := .empty }

/-- R186: the step list of CLOSE after its check. -/
def State.closeSteps (s : State) : State :=
  ({ s.cancelOutstanding.emit [.tClose] with life := .closed }).respond .ok

/-- CLOSE, R186. -/
def execClose (s : State) : Host.Outcome State Fault Refusal :=
  hostCommand .close State.closeSteps s

end Sys2Proof.Machine
end

