-- ==== Sys2Proof/Machine/Transfer.lean ====
section
/-! DEFINITION. The four commands of the transfer state machine, 42_transfer_state_machine.md: WRITE (R148, R149),
WRITE_ASYNC_BEGIN (R152, R153), WRITE_ASYNC_END (R160) and CLEAR (R162). -/

namespace Sys2Proof.Machine

/-- R144, R148, R152: the preparation both frame commands share, then CS_ASSERT. -/
def State.prepareFrame (pix : Pixels) (s : State) : State :=
  (s.vcomToggle.storeModeByte.encodeFrame pix).csAssertStep

/-- R148, R149: the status of a frame whose transmit reported `r`. The test is inequality (90_conflicts.md C2). -/
def writeStatus (r : Int) : Status := if r = Config.buffSize then .ok else .shortWriteError

/-- R148: after a transmit that returned the report `r`, CS_DEASSERT and then the status. -/
def State.finishWrite (r : Int) (s : State) : State :=
  { (s.csDeassertStep.respond (writeStatus r)) with seq := .idle }

/-- R146, R148: WRITE from its transmit step on. A transmit that never returns leaves the command where it stands (R146). -/
def State.sendFrame (s : State) : State :=
  match txResult s.nextAnswers.tx with
  | .returned r => (s.txBlocking s.wfb.frame Config.buffSize).finishWrite r
  | .hung => { s.txBlocking s.wfb.frame Config.buffSize with seq := .stalled }

/-- R148: the step list of WRITE after its checks. -/
def State.writeSteps (pix : Pixels) (s : State) : State :=
  ({ s.prepareFrame pix with seq := .frameReady }).sendFrame

/-- WRITE, R148. -/
def execWrite (pix : Pixels) (s : State) : Host.Outcome State Fault Refusal :=
  hostCommand .write (withPixels pix (State.writeSteps pix)) s

/-- R153: the failed-submission path, under either value of `ASYNC_SUBMIT_FAIL_CS`. -/
def State.submitFailed (mode : FailCs) (s : State) : State :=
  match mode with
  | .deassert => s.csDeassertStep.respond .asyncSubmitError
  | .hold => s.respond .asyncSubmitError

/-- R152: an accepted submission occupies the slot and starts the engine. -/
def State.submitAccepted (s : State) : State :=
  ({ s with slot := .inFlight, txi := 0 }).respond .ok

/-- R152: the step list of WRITE_ASYNC_BEGIN after its checks. -/
def State.beginSteps (pix : Pixels) (s : State) : State :=
  let s1 := (s.prepareFrame pix).emit [.tSubmit Config.buffSize Config.completionTag]
  if s1.nextAnswers.accepted then s1.consumeAnswers.submitAccepted
  else s1.consumeAnswers.submitFailed Config.asyncSubmitFailCs

/-- WRITE_ASYNC_BEGIN, R152. -/
def execWriteAsyncBegin (pix : Pixels) (s : State) : Host.Outcome State Fault Refusal :=
  hostCommand .writeAsyncBegin (withPixels pix (State.beginSteps pix)) s

/-- R160: the step list of WRITE_ASYNC_END after its check. -/
def State.endSteps (s : State) : State :=
  ({ s.csDeassertStep with slot := .empty }).respond .ok

/-- WRITE_ASYNC_END, R160. -/
def execWriteAsyncEnd (s : State) : Host.Outcome State Fault Refusal :=
  hostCommand .writeAsyncEnd State.endSteps s

/-- R162: after a transmit that returned, CS_DEASSERT and the status `OK` whatever the report (R163 (c)). -/
def State.finishClear (s : State) : State :=
  { (s.csDeassertStep.respond .ok) with seq := .idle }

/-- R146, R162: CLEAR from its transmit step on. "r is not examined". -/
def State.sendClear (s : State) : State :=
  match txResult s.nextAnswers.tx with
  | .returned _ => (s.txBlocking (clearSeq s.v) Config.clearLen).finishClear
  | .hung => { s.txBlocking (clearSeq s.v) Config.clearLen with seq := .stalled }

/-- R162: the step list of CLEAR after its check. `CLR` is built from the toggled `V` and not kept (R54). -/
def State.clearSteps (s : State) : State :=
  ({ s.vcomToggle.csAssertStep with seq := .clearReady }).sendClear

/-- CLEAR, R162. -/
def execClear (s : State) : Host.Outcome State Fault Refusal :=
  hostCommand .clear State.clearSteps s

end Sys2Proof.Machine
end

