-- ==== Sys2Proof/Machine/Engine.lean ====
section
/-! DEFINITION. The asynchronous transfer engine, 42_transfer_state_machine.md R155 to R158: an agent with two steps of its own,
taken between host commands (R216). -/

namespace Sys2Proof.Machine

/-- R156: the effect of the byte step, `emit(TX(WFB[TXI])); TXI <- TXI + 1`. -/
def State.engineByteStep (s : State) : State :=
  { s.emit [.tx (s.wfb.read s.txi)] with txi := s.txi + 1 }

/-- R157: the effect of the completion step, `SLOT <- Done; emit(SIG(COMPLETION_TAG))`. -/
def State.engineDoneStep (s : State) : State :=
  { s.emit [.sig Config.completionTag] with slot := .done }

/-- R156: the byte step, "Enabled when `SLOT = InFlight` and `TXI < 12482`". -/
def engineByteMove (s : State) : Host.Outcome State Fault Refusal :=
  atHostPort s
    (if s.slot = .inFlight ∧ s.txi < Config.buffSize then .next s.engineByteStep
     else .refused .engineStepNotEnabled)

/-- R157, R158 (a): the completion step, enabled while `SLOT = InFlight`; before the last byte it is the early completion that
premise `TransportReliable` excludes.
DESIGN CHOICE (log entry 13): a move of a step that is not enabled is refused. -/
def engineDoneMove (s : State) : Host.Outcome State Fault Refusal :=
  atHostPort s
    (if s.slot = .inFlight then .next s.engineDoneStep
     else .refused .engineStepNotEnabled)

end Sys2Proof.Machine
end

