-- ==== Sys2Proof/Machine/Wire.lean ====
section
/-! DEFINITION. The two rows of format WIRECMD (30_encoding.md R87 to R89, R94, R96): the command bytes the block puts on the
wire, each as the transmission that begins with it. The host cannot issue them (R85); on the host command port their words are
reserved (R84). Log entry 7. -/

namespace Sys2Proof.Machine

/-- WIRE_FRAME_MODE, R88, in the words of its row in spec/opcode_table.json: "first byte of a FRAME transfer (WFB[0]); emitted
by WRITE and by the engine after WRITE_ASYNC_BEGIN". Log entry 7. It is the next byte out where chip-select is asserted, `WFB[0]` is that byte, and either WRITE stands at
its transmit step (R148), and from there the command "runs to its end" (R27), or the engine stands at byte 0 (R156), and the
row is its byte step.
In every other state the block emits no such byte (R94), and the step has no meaning. -/
def execWireFrameMode (v : Bit) (s : State) : Host.Outcome State Fault Refusal :=
  whenRunning s
    (if s.cs = .asserted ∧ s.wfb.read eaMode = commandByte Config.cmdWrite v then
      (if s.seq = .frameReady then .next s.sendFrame
       else if s.seq = .idle ∧ s.slot = .inFlight ∧ s.txi = 0 then .next s.engineByteStep
       else .refused .wireByteNotDue)
     else .refused .wireByteNotDue)

/-- WIRE_CLEAR, R89, in the words of its row in spec/opcode_table.json: "first byte of a CLEARSEQ transfer; emitted by CLEAR;
followed by one byte 0x00". Log entry 7. It is the next byte out
where chip-select is asserted, `V` is the bit it carries, and CLEAR stands at its transmit step (R162); from there the command
"runs to its end" (R27). In every other state the block emits no such byte (R94), and the step has no meaning. -/
def execWireClear (v : Bit) (s : State) : Host.Outcome State Fault Refusal :=
  whenRunning s
    (if s.cs = .asserted ∧ s.v = v ∧ s.seq = .clearReady then .next s.sendClear
     else .refused .wireByteNotDue)

end Sys2Proof.Machine
end

