-- ==== Sys2Proof/Machine/Dispatch.lean ====
section
/-! DEFINITION. One arm per row of spec/opcode_table.json. -/

namespace Sys2Proof.Machine

def exec (i : Instr) (s : State) : Host.Outcome State Fault Refusal :=
  match i with
  | .init path => Sys2Proof.Machine.execInit path s
  | .write pix => Sys2Proof.Machine.execWrite pix s
  | .writeAsyncBegin pix => Sys2Proof.Machine.execWriteAsyncBegin pix s
  | .writeAsyncEnd => Sys2Proof.Machine.execWriteAsyncEnd s
  | .clear => Sys2Proof.Machine.execClear s
  | .close => Sys2Proof.Machine.execClose s
  | .wireFrameMode v => Sys2Proof.Machine.execWireFrameMode v s
  | .wireClear v => Sys2Proof.Machine.execWireClear v s

end Sys2Proof.Machine
end

