-- ==== Sys2Proof/Machine/Fetch.lean ====
section
/-! DEFINITION. How the next step is selected: there is no program counter, no instruction memory and no fetch (10_state.md
R27); the block waits for a host command (R35, R241), and the engine's steps stand between commands (R155, R216). -/

namespace Sys2Proof.Machine

/-- R84, R215 (1): a packet the decoder rejects. A reserved host word is `fault F_RESERVED_OPCODE`; the other packets are
no part of the spec's interface and have no meaning. -/
def rejectPacket (e : DecodeError) (s : State) : Host.Outcome State Fault Refusal :=
  match e with
  | .reservedOpcode _ => atHostPort s (.next (s.raise .reservedOpcode))
  | .operandNotTaken _ => atHostPort s (.refused .operandNotTaken)
  | .neverEmitted _ => whenRunning s (.refused .wireByteNeverEmitted)

/-- R215: the decoder first, then the instruction. -/
def runPacket (p : Packet) (s : State) : Host.Outcome State Fault Refusal :=
  match decode p with
  | .ok i => exec i s
  | .error e => rejectPacket e s

/-- R13, R155: the move of one agent. -/
def runMove (m : Move) (s : State) : Host.Outcome State Fault Refusal :=
  match m with
  | .cmd p => runPacket p s
  | .engineByte => engineByteMove s
  | .engineDone => engineDoneMove s

/-- The next whole step (R216). With nothing to do the block "is idle with all state kept" (R230, R241).
DEDUCED (log entry 15): an idle step is a step that keeps the whole state. -/
def runNext (s : State) : Host.Outcome State Fault Refusal :=
  match s.agenda with
  | [] => whenRunning s (.next s)
  | m :: rest => runMove m { s with agenda := rest }

/-- The packet of a table word becomes the next move, ahead of every other. -/
def State.enqueueFirst (p : Packet) (s : State) : State := { s with agenda := .cmd p :: s.agenda }

/-- The block at the point where `b` is the next byte out (log entry 2): chip-select asserted, the sequencer at the transmit
step, and the byte at its source, `WFB[0]` for a frame (R88) and `V` for a clear (R89). A byte that is no command byte has no
such point. -/
def State.awaitWireByte (b : Byte) (s : State) : State :=
  match decodeWire b with
  | .ok (.wireFrameMode _) => { s with cs := .asserted, seq := .frameReady, wfb := s.wfb.write eaMode b }
  | .ok (.wireClear v) => { s with cs := .asserted, seq := .clearReady, v := v }
  | _ => s

/-- A table word placed where the next step takes it: a host word on the agenda; a wire byte on the agenda and the block at the
point where it emits that byte. -/
def State.present (p : Packet) (s : State) : State :=
  match p with
  | .host _ _ => s.enqueueFirst p
  | .wire b => (s.awaitWireByte b).enqueueFirst p

end Sys2Proof.Machine
end

