-- ==== Sys2Proof/Machine/Step.lean ====
section
/-! DEFINITION. One step of the block, and the placing of one table word where that step takes its next command. -/

namespace Sys2Proof.Machine

/-- One whole step of one agent (10_state.md R27, 60_exceptions.md R216). -/
def step (s : State) : Host.Outcome State Fault Refusal := runNext s

/-- `s` with the table word `w` as the next command, on the port of its row's format, with an operand of zeros
(`tablePacket`, Decode.lean; `State.present`, Fetch.lean). -/
def State.withFetchWord (s : State) (_nbits w : Nat) : State := s.present (tablePacket w)

end Sys2Proof.Machine
end

