-- ==== Sys2Proof/Machine/Observe.lean ====
section
/-! DEFINITION. What a claim reads off the trace (10_state.md R31): "the observation a claim about the block is stated over".
No meaning uses a definition of this file. -/

namespace Sys2Proof.Machine

/-- R31: "The panel-visible trace is the subsequence of `DISP_LOW`, `DISP_HIGH`, `CS_ASSERT`, `CS_DEASSERT`, `WAIT`, `TX` events". -/
def panelVisible : Event → Bool
  | .dispLow | .dispHigh | .csAssert | .csDeassert | .wait _ | .tx _ => true
  | .tOpen _ | .tConfig _ _ _ _ | .gClaim _ | .tSubmit _ _ | .sig _ | .tCancel | .tClose => false

/-- R31: the panel-visible part of a trace. -/
def panelTrace (es : List Event) : List Event := es.filter panelVisible

/-- An event with the byte it carries blanked: what is left of it when the data are hidden. -/
def blankTx : Event → Event
  | .tx _ => .tx 0x00#8
  | e => e

/-- The chip-select line after an event (R142, R143). -/
def csAfter (cs : CsLine) : Event → CsLine
  | .csAssert => .asserted
  | .csDeassert => .deasserted
  | _ => cs

/-- The chip-select line as a trace from power-on drove it (R29). -/
def csOf (es : List Event) : CsLine := es.foldl csAfter .unclaimed

/-- The display-enable line after an event (R30). -/
def dispAfter (d : DispLine) : Event → DispLine
  | .dispLow => .low
  | .dispHigh => .high
  | _ => d

/-- The display-enable line as a trace from power-on drove it (R30). -/
def dispOf (es : List Event) : DispLine := es.foldl dispAfter .unclaimed

/-- How many chip-select brackets a trace opens. -/
def assertCount (es : List Event) : Nat := es.count .csAssert

/-- `V` after `n` toggles from the power-on value (R133: `v_k = V_RESET ^ (k mod 2)`). -/
def vAfter (n : Nat) : Bit := Config.vReset ^^^ BitVec.ofNat 1 n

/-- Where a trace stands in the shape of R164. -/
inductive BusPhase where
  /-- No bracket is open. -/
  | free
  /-- `CS_ASSERT` has been seen; `WAIT(10)` comes next (R142). -/
  | asserted
  /-- The bracket is open and carries the bytes `bs` so far. -/
  | sending (bs : List Byte)
  /-- `WAIT(5)` has been seen; `CS_DEASSERT` comes next (R143). -/
  | held (bs : List Byte)
  /-- The bracket of a transfer that was outstanding at a CLOSE, once a later INIT has claimed the line again (R182 (e)). -/
  | abandoned (bs : List Byte)
  deriving DecidableEq, Repr

/-- A reading of a trace: the phase it ends in, and the bytes of the brackets it has closed, oldest first. -/
structure BusScan where
  phase : BusPhase
  closed : List (List Byte)
  deriving DecidableEq, Repr

/-- R164: the events each phase admits. `none` is an event out of place.
Only an INIT, which claims the line first, may release a bracket without `WAIT(5)` (R180, R182 (e)). -/
def scanStep (sc : BusScan) (e : Event) : Option BusScan :=
  match sc.phase, e with
  | .free, .csAssert => some { sc with phase := .asserted }
  | .free, .csDeassert => some sc
  | .free, .wait _ => some sc
  | .free, .dispLow => some sc
  | .free, .dispHigh => some sc
  | .free, .tx _ => none
  | .asserted, .wait n => if n = Config.tSettleUs then some { sc with phase := .sending [] } else none
  | .sending bs, .tx b => some { sc with phase := .sending (bs ++ [b]) }
  | .sending bs, .wait n => if n = Config.tHoldUs then some { sc with phase := .held bs } else none
  | .sending bs, .gClaim _ => some { sc with phase := .abandoned bs }
  | .held bs, .csDeassert => some { phase := .free, closed := sc.closed ++ [bs] }
  | .abandoned bs, .csDeassert => some { phase := .free, closed := sc.closed ++ [bs] }
  | _, e => if panelVisible e then none else some sc

/-- R164: the reading of a whole trace from power-on. -/
def scanTrace (es : List Event) : Option BusScan :=
  es.foldl (fun sc e => sc.bind (scanStep · e)) (some { phase := .free, closed := [] })

/-- The bytes clocked out since chip-select was last asserted. -/
def sinceAssert (es : List Event) : List Byte :=
  es.foldl (fun bs e => match e with | .csAssert => [] | .tx b => bs ++ [b] | _ => bs) []

end Sys2Proof.Machine
end

