-- ==== Sys2Proof/Safety.lean ====
section
/-! DEFINITION. What counts as a safe run, in the terms claims use: a state a claim may start from, the premises about the
environment (42_transfer_state_machine.md R147), and the invariants of 10_state.md R24 and R38 and of R164. -/

namespace Sys2Proof.Machine

/-- R32, R38: no fault is recorded, and the block is between commands. "every claim takes `FAULT = none` as a premise". -/
structure State.Ready (s : State) : Prop where
  noFault : s.fault = none
  between : s.seq = .idle

/-- R147 `TransportReliable`, its part about one blocking write of `n` bytes: it "reports the full length".
DESIGN CHOICE (log entry 21): a write that never returns has reported nothing, so the premise asks that the write returns. -/
def txReliable (n : Nat) (a : TxAnswer) : Prop := ∃ k, a = .returns k n

/-- R147 `TransportLive`, its part about one blocking write: it returns. -/
def txLive (a : TxAnswer) : Prop := ∃ k r, a = .returns k r

/-! ### Runs, and the calls a step makes of the transport -/

/-- `t` is the state after `n` steps from `s`, none of which stopped. -/
def State.Reaches (s : State) (n : Nat) (t : State) : Prop := Host.Core.run core n s = .next t

/-- The next move of `s` is the word of the instruction `i`. -/
def State.Takes (s : State) (i : Instr) : Prop := ∃ p rest, s.agenda = .cmd p :: rest ∧ decode p = .ok i

/-- R146, R148, R162: the instruction makes a blocking write of `n` bytes in `s`. The commands make one once their checks have
passed; the wire rows, where they stand at that write (log entry 7). -/
def writesBlocking (i : Instr) (s : State) (n : Nat) : Prop :=
  match i with
  | .init _ => False
  | .write pix => s.Ready ∧ s.life = .opened ∧ s.slot = .empty ∧ pix.length = 12000 ∧ n = 12482
  | .writeAsyncBegin _ => False
  | .writeAsyncEnd => False
  | .clear => s.Ready ∧ s.life = .opened ∧ s.slot = .empty ∧ n = 2
  | .close => False
  | .wireFrameMode v =>
    s.fault = none ∧ s.cs = .asserted ∧ s.wfb.read 0 = commandByte 0x80#8 v ∧ s.seq = .frameReady ∧ n = 12482
  | .wireClear v => s.fault = none ∧ s.cs = .asserted ∧ s.v = v ∧ s.seq = .clearReady ∧ n = 2

/-- The next step of `s` makes a blocking write of `n` bytes. -/
def State.WritesBlocking (s : State) (n : Nat) : Prop := ∃ i, s.Takes i ∧ writesBlocking i s n

/-- R152: the next step of `s` submits an asynchronous transfer. -/
def State.Submits (s : State) : Prop :=
  s.Ready ∧ s.life = .opened ∧ s.slot = .empty ∧ ∃ pix, pix.length = 12000 ∧ s.Takes (.writeAsyncBegin pix)

/-- R157, R158 (a): the next step of `s` is the engine's completion step. -/
def State.Completes (s : State) : Prop := s.Ready ∧ s.slot = .inFlight ∧ ∃ rest, s.agenda = .engineDone :: rest

/-- R156 to R158: the engine has a step, the byte step or the completion step. -/
def State.EngineEnabled (s : State) : Prop := s.Ready ∧ s.slot = .inFlight

/-- The next step of `s` is taken by the engine. Its first byte step may stand on the agenda as the wire row of that byte
(log entry 7). -/
def State.EngineSteps (s : State) : Prop :=
  s.EngineEnabled ∧ (∃ t, step s = .next t) ∧
    ((∃ rest, s.agenda = .engineByte :: rest) ∨ (∃ rest, s.agenda = .engineDone :: rest) ∨ ∃ v, s.Takes (.wireFrameMode v))

/-! ### The premises of R147, of the run from a state (log entry 20) -/

/-- R147 `TransportReliable`: "every blocking write reports the full length; every asynchronous submission is accepted; the
engine sends all 12,482 bytes before it completes". Its first part excludes a hang by itself (DESIGN CHOICE, log entry 21). -/
structure TransportReliable (s : State) : Prop where
  fullReports : ∀ n t k, s.Reaches n t → t.WritesBlocking k → txReliable k t.nextAnswers.tx
  submissionsAccepted : ∀ n t, s.Reaches n t → t.Submits → t.nextAnswers.accepted = true
  sentBeforeCompletion : ∀ n t, s.Reaches n t → t.Completes → t.txi = 12482

/-- R147 `TransportLive`: "every blocking write returns; the engine, once started, keeps taking steps until it completes (weak
fairness of the engine's steps)". Fairness as R159 has it, "an enabled engine step is eventually taken": from every point of the
run on, a point comes where the engine has no step, or takes one. -/
structure TransportLive (s : State) : Prop where
  writesReturn : ∀ n t k, s.Reaches n t → t.WritesBlocking k → txLive t.nextAnswers.tx
  engineFair : ∀ n, ∃ m ≥ n, ∀ t, s.Reaches m t → t.EngineEnabled → t.EngineSteps

/-! ### One cancel, and the invariants -/

/-- R147, R186 `CancelEffective`, for the cancel a CLOSE would make in `s`: `m = TXI` and `late_sig = false`. -/
def State.CancelEffective (s : State) : Prop :=
  stopPoint s.txi s.nextAnswers.stopAt = s.txi ∧ s.nextAnswers.lateSig = false

/-- R24: the 240 gap bytes and the final byte are 0x00. -/
def Memory.DummiesZero (m : Memory) : Prop :=
  (∀ l < 240, m.read (eaGap l) = 0x00#8) ∧ m.read eaFinal = 0x00#8

/-- R38 (a) to (d), R24 and R51 for a state between steps, with the two positions a step can leave the sequencer in (R146).
It is the spec's list under `ASYNC_SUBMIT_FAIL_CS = deassert`. -/
structure Inv (s : State) : Prop where
  /-- `WFB` is in canonical form. -/
  bufferWf : s.wfb.wf
  /-- R38 (a). -/
  outstanding : s.slot ≠ .empty → s.life = .opened ∧ s.cs = .asserted ∧ s.seq = .idle
  /-- R38 (b), between commands. -/
  released : s.life = .opened → s.slot = .empty → s.seq = .idle → s.cs = .deasserted
  /-- R38 (c), R24. -/
  opened : s.life = .opened → s.disp = .high ∧ s.wfb.DummiesZero
  /-- R38 (d). -/
  sentBound : s.txi ≤ 12482
  /-- R146: between commands, or hung inside a blocking transfer with chip-select asserted. -/
  position : s.seq = .idle ∨ (s.seq = .stalled ∧ s.life = .opened ∧ s.slot = .empty ∧ s.cs = .asserted)

/-- R95: the bytes of a bracket are a first part of a FRAME or of a CLEARSEQ. -/
def TransferPrefix (bs : List Byte) : Prop :=
  (∃ (v : Bit) (pix : Pixels), pix.length = 12000 ∧ bs <+: frameOf v pix) ∨ ∃ v : Bit, bs <+: clearSeq v

/-- R164 for a state between steps: the trace from power-on is a run of well-shaped brackets, each holding a first part of a
transfer, and its last bracket is open exactly where chip-select is asserted.
While a transfer is in flight, the open bracket holds `WFB[0]` to `WFB[TXI - 1]` (R156, R158) of a whole frame (R86). -/
structure BusInv (s : State) : Prop where
  shape : ∃ sc, scanTrace s.trace = some sc ∧ (∀ bs ∈ sc.closed, TransferPrefix bs) ∧
    ((sc.phase = .free ∧ s.cs ≠ .asserted) ∨
     (∃ bs, sc.phase = .sending bs ∧ s.cs = .asserted ∧ TransferPrefix bs ∧
       (s.slot = .inFlight → bs = s.wfb.slice 0 s.txi)) ∨
     (∃ bs, sc.phase = .abandoned bs ∧ s.cs = .asserted ∧ TransferPrefix bs ∧ s.life = .closed))
  inFlight : s.slot = .inFlight → ∃ v pix, pix.length = 12000 ∧ s.wfb.frame = frameOf v pix

/-- R29, R30: the lines stand as the trace drove them. -/
def LinesFollowTrace (s : State) : Prop := csOf s.trace = s.cs ∧ dispOf s.trace = s.disp

/-- R133: `V` is the power-on value toggled once for each bracket the trace has opened. -/
def VcomFollowsTrace (s : State) : Prop := s.v = vAfter (assertCount s.trace)

end Sys2Proof.Machine
end

