-- ==== Sys2Proof/Certificates/Slice0/Obligations.lean ====
section
/-! DEFINITION. The statements for the provers, each from the numbered rules of spec/ its docstring names. Log entries are
notes/assumptions/<n>.md. -/

open Sys2Proof Sys2Proof.Machine

/-! ### Encodings and the selection of a step -/

/-- 30_encoding.md section 1 (R80, R81, R84) and section 2 (R87 to R89): decode and encode agree in both directions, for every
instruction and every packet. No operand byte and no VCOM bit is dropped, and each packet has one meaning. -/
def Obligations.DecodeAndEncodeAgree : Prop :=
  (∀ i : Instr, i.wellFormed = true → decode (encode i) = .ok i) ∧
  ∀ (p : Packet) (i : Instr), decode p = .ok i → encode i = p

/-- R84: exactly the words with `op` = 6 or 7 or with `CW[7:3]` not zero are reserved, whatever operand stands with them, and
each "maps [...] to `fault F_RESERVED_OPCODE` and changes no other state". -/
def Obligations.ReservedHostWordsFault : Prop :=
  ∀ (s : State) (cw : Byte) (operand : List Byte) (rest : List Move),
    (decode (.host cw operand) = .error (.reservedOpcode cw) ↔
      (cw.toNat / 8 ≠ 0 ∨ cw.toNat % 8 = 6 ∨ cw.toNat % 8 = 7)) ∧
    (s.Ready → s.agenda = .cmd (.host cw operand) :: rest →
      (cw.toNat / 8 ≠ 0 ∨ cw.toNat % 8 = 6 ∨ cw.toNat % 8 = 7) →
      step s = .next { s with agenda := rest, fault := some .reservedOpcode })

/-- 30_encoding.md sections 1 and 2: words written out from R81 and R87, a sanity check of the decoder. -/
def Obligations.WrittenOutWordsDecode : Prop :=
  decode (.host 0b00000000#8 [0x70#8]) = .ok (.init [0x70#8]) ∧
  decode (.host 0b00000001#8 [0x12#8, 0x34#8]) = .ok (.write [0x12#8, 0x34#8]) ∧
  decode (.host 0b00000010#8 [0x56#8]) = .ok (.writeAsyncBegin [0x56#8]) ∧
  decode (.host 0b00000011#8 []) = .ok .writeAsyncEnd ∧
  decode (.host 0b00000100#8 []) = .ok .clear ∧
  decode (.host 0b00000101#8 []) = .ok .close ∧
  decode (.wire 0b10000000#8) = .ok (.wireFrameMode 0#1) ∧
  decode (.wire 0b11000000#8) = .ok (.wireFrameMode 1#1) ∧
  decode (.wire 0b00100000#8) = .ok (.wireClear 0#1) ∧
  decode (.wire 0b01100000#8) = .ok (.wireClear 1#1)

/-- 30_encoding.md section 3 (R94) with section 2 (R87): exactly the four bytes 0x80, 0xC0, 0x20 and 0x60 are command bytes of
the wire. -/
def Obligations.FourWireCommandBytes : Prop :=
  ∀ b : Byte, (∃ i, decode (.wire b) = .ok i) ↔ (b = 0x80#8 ∨ b = 0xC0#8 ∨ b = 0x20#8 ∨ b = 0x60#8)

/-- 10_state.md section 1 and 60_exceptions.md section 3 (R27, R215, R216): a step takes the first move of the agenda. A packet
that decodes to `i` runs `i`, on the state with that move taken; an engine move runs that engine step; and with nothing to do
the block keeps all its state (R230). The agenda is the model's own input (log entry 2). -/
def Obligations.StepRunsTheNextMove : Prop :=
  (∀ (s : State) (p : Packet) (rest : List Move) (i : Instr),
    s.agenda = .cmd p :: rest → decode p = .ok i → step s = exec i { s with agenda := rest }) ∧
  (∀ (s : State) (rest : List Move), s.agenda = .engineByte :: rest → step s = engineByteMove { s with agenda := rest }) ∧
  (∀ (s : State) (rest : List Move), s.agenda = .engineDone :: rest → step s = engineDoneMove { s with agenda := rest }) ∧
  ∀ s : State, s.Ready → s.agenda = [] → step s = .next s

/-! ### Bit reversal, the frame encoder and the wire formats -/

/-- R110: the table has 256 entries, entry `b` is the byte whose bit `i` is bit `7 - i` of `b`, equivalently the sum the rule
gives, and the table equals the function `rev8`. -/
def Obligations.BitReversalTable : Prop :=
  bitrevTable.length = 256 ∧
  ∀ b : Byte, (∀ i < 8, (bitrev b).getLsbD i = b.getLsbD (7 - i)) ∧
    (bitrev b).toNat = ((List.range 8).map (fun i => (b.getLsbD i).toNat * 2 ^ (7 - i))).sum ∧
    bitrev b = rev8 b

/-- 40_frame_encoder.md section 1, the laws (a) to (e) of R111: reversal is its own inverse and a bijection, commutes with
the bit operations, and has exactly the 16 fixed points listed. -/
def Obligations.BitReversalLaws : Prop :=
  (∀ b : Byte, bitrev (bitrev b) = b) ∧
  Function.Bijective bitrev ∧
  (∀ a b : Byte, bitrev (a ||| b) = bitrev a ||| bitrev b ∧ bitrev (a &&& b) = bitrev a &&& bitrev b ∧
    bitrev (a ^^^ b) = bitrev a ^^^ bitrev b ∧ bitrev (~~~b) = ~~~(bitrev b)) ∧
  (bitrev 0x00#8 = 0x00#8 ∧ bitrev 0xFF#8 = 0xFF#8 ∧ bitrev 0x01#8 = 0x80#8 ∧ bitrev 0x80#8 = 0x01#8) ∧
  ∀ b : Byte, bitrev b = b ↔ b ∈ [0x00#8, 0x18#8, 0x24#8, 0x3C#8, 0x42#8, 0x5A#8, 0x66#8, 0x7E#8, 0x81#8, 0x99#8, 0xA5#8,
    0xBD#8, 0xC3#8, 0xDB#8, 0xE7#8, 0xFF#8]

/-- R114, R115: for every array of exactly 12,000 bytes ENCODE sets the address byte of each line to `BITREV[L + 1]` and each
data byte to the complement of its pixel byte; the mode byte, the gap bytes and the final byte keep their values, and so does
every other address. It returns nothing, cannot fail and writes `WFB` alone. -/
def Obligations.EncodeStoresExactlyTheLineBytes : Prop :=
  ∀ (m : Memory) (pix : Pixels) (s : State), m.wf → pix.length = 12000 →
    (∀ l < 240, (encodeInto pix m).read (1 + 52 * l) = bitrev (BitVec.ofNat 8 (l + 1))) ∧
    (∀ l < 240, ∀ j < 50, (encodeInto pix m).read (1 + 52 * l + 1 + j) = ~~~(pix.getD (50 * l + j) 0x00#8)) ∧
    (encodeInto pix m).read 0 = m.read 0 ∧
    (∀ l < 240, (encodeInto pix m).read (52 + 52 * l) = m.read (52 + 52 * l)) ∧
    (encodeInto pix m).read 12481 = m.read 12481 ∧
    (∀ a, (∀ l < 240, a ≠ eaAdr l ∧ ∀ j < 50, a ≠ eaDst l j) → (encodeInto pix m).read a = m.read a) ∧
    (encodeInto pix m).wf ∧
    s.encodeFrame pix = { s with wfb := encodeInto pix s.wfb }

/-- 40_frame_encoder.md section 3 (R116): ENCODE is its 12,240 single-byte stores, one after another, in whatever order they are
made. -/
def Obligations.EncodeIsItsStoresInAnyOrder : Prop :=
  ∀ (m : Memory) (pix : Pixels) (stores : List Host.Cell), m.wf → pix.length = 12000 → stores.Perm (encodeStores pix) →
    stores.length = 12240 ∧ stores.foldl (fun x c => x.write c.1 c.2) m = encodeInto pix m

/-- 40_frame_encoder.md section 3, the properties (a) to (c) of R117: complementing the wire bytes gives the pixels back, ENCODE
twice equals ENCODE once, and a later ENCODE leaves nothing of an earlier one. -/
def Obligations.EncodeForgetsEarlierFrames : Prop :=
  ∀ (m : Memory) (p q : Pixels), m.wf → p.length = 12000 → q.length = 12000 →
    encodeInto p (encodeInto p m) = encodeInto p m ∧
    encodeInto p (encodeInto q m) = encodeInto p m ∧
    ∀ l < 240, ∀ j < 50, ~~~((encodeInto p m).read (eaDst l j)) = p.getD (eaSrc l j) 0x00#8

/-- R86: the offsets of the format FRAME, for every VCOM bit and every pixel array. -/
def Obligations.FrameLayout : Prop :=
  ∀ (v : Bit) (pix : Pixels), pix.length = 12000 →
    (frameOf v pix).length = 12482 ∧
    (frameOf v pix)[0]? = some (0x80#8 ||| (v.setWidth 8 <<< 6)) ∧
    (∀ l < 240, (frameOf v pix)[1 + 52 * l]? = some (bitrev (BitVec.ofNat 8 (l + 1)))) ∧
    (∀ l < 240, ∀ j < 50, (frameOf v pix)[1 + 52 * l + 1 + j]? = some (~~~(pix.getD (50 * l + j) 0x00#8))) ∧
    (∀ l < 240, (frameOf v pix)[1 + 52 * l + 51]? = some 0x00#8) ∧
    (frameOf v pix)[12481]? = some 0x00#8

/-- 30_encoding.md section 2 (R90): the 240 address bytes, none of them 0x00, sum to 30,495, the check figure of the rule; the
first is 0x80, the last 0x0F. -/
def Obligations.AddressBytesCheckFigure : Prop :=
  ((List.range 240).map (fun l => (addressByte l).toNat)).sum = 30495 ∧
  (∀ l < 240, addressByte l = bitrev (BitVec.ofNat 8 (l + 1)) ∧ addressByte l ≠ 0x00#8) ∧
  addressByte 0 = 0x80#8 ∧ addressByte 239 = 0x0F#8

/-- 30_encoding.md section 2 and 20_memory.md section 2 (R58, R59, R93): a frame on the wire is 99,856 bits: `W`, `VC`, `CL` and
five zeros first; for each line its address bit 0 first, its data bytes bit 7 first, and eight zero bits; and 16 zero bits last.
A clear is 16 bits. -/
def Obligations.WireBitStream : Prop :=
  ∀ (v : Bit) (pix : Pixels), pix.length = 12000 →
    (wireStream (frameOf v pix)).length = 99856 ∧
    (wireStream (frameOf v pix)).take 8 = [true, v.getLsbD 0, false, false, false, false, false, false] ∧
    (∀ l < 240, ∀ i < 8, (wireStream (frameOf v pix))[8 * (1 + 52 * l) + i]? = some ((l + 1).testBit i)) ∧
    (∀ l < 240, ∀ j < 50, ∀ i < 8, (wireStream (frameOf v pix))[8 * (1 + 52 * l + 1 + j) + i]? =
      some (!(pix.getD (50 * l + j) 0x00#8).getLsbD (7 - i))) ∧
    (∀ l < 240, ∀ i < 8, (wireStream (frameOf v pix))[8 * (1 + 52 * l + 51) + i]? = some false) ∧
    (∀ i < 16, (wireStream (frameOf v pix))[99840 + i]? = some false) ∧
    wireStream (clearSeq v) = [false, v.getLsbD 0, true] ++ List.replicate 13 false

/-! ### VCOM polarity -/

/-- 41_vcom_sequencer.md (R130, R131) with 00_scope.md section 3 (R7): the toggle of the one bit writes nothing but `V`; the
command byte is `base | (V << 6)`, which is `base | 0x40`
when `V = 1` and `base` when `V = 0`: 0x80 or 0xC0 for a frame, 0x20 or 0x60 for a clear, with bits 4 to 0 zero. -/
def Obligations.VcomToggleAndCommandByte : Prop :=
  (∀ s : State, s.vcomToggle = { s with v := s.v ^^^ 1#1 } ∧ (s.v = 0#1 → s.vcomToggle.v = 1#1) ∧
    (s.v = 1#1 → s.vcomToggle.v = 0#1)) ∧
  (∀ base : Byte, commandByte base 1#1 = base ||| 0x40#8 ∧ commandByte base 0#1 = base) ∧
  (∀ (base : Byte) (v : Bit), commandByte base v = base ||| (v.setWidth 8 <<< 6)) ∧
  (∀ v : Bit, (commandByte 0x80#8 v).toNat = 0x80 + 64 * v.toNat ∧ (commandByte 0x20#8 v).toNat = 0x20 + 64 * v.toNat) ∧
  ∀ v : Bit, (commandByte 0x80#8 v = 0x80#8 ∨ commandByte 0x80#8 v = 0xC0#8) ∧
    (commandByte 0x20#8 v = 0x20#8 ∨ commandByte 0x20#8 v = 0x60#8) ∧
    (commandByte 0x80#8 v).toNat % 32 = 0 ∧ (commandByte 0x20#8 v).toNat % 32 = 0

/-- 41_vcom_sequencer.md (R130, R134, R135) with 10_state.md section 2 (R22): a WRITE, WRITE_ASYNC_BEGIN or CLEAR that passes
its checks toggles `V`, whatever comes of its transfer; no other instruction changes `V`, and a command that faults does not.
-/
def Obligations.OnlyToggleCommandsMoveV : Prop :=
  ∀ (s t : State),
    (∀ pix, exec (.write pix) s = .next t → t.fault = none → t.v = s.v ^^^ 1#1) ∧
    (∀ pix, exec (.writeAsyncBegin pix) s = .next t → t.fault = none → t.v = s.v ^^^ 1#1) ∧
    (exec .clear s = .next t → t.fault = none → t.v = s.v ^^^ 1#1) ∧
    (∀ i, exec i s = .next t → t.fault ≠ none → t.v = s.v) ∧
    (∀ path, exec (.init path) s = .next t → t.v = s.v) ∧
    (exec .writeAsyncEnd s = .next t → t.v = s.v) ∧
    (exec .close s = .next t → t.v = s.v) ∧
    (∀ v, exec (.wireFrameMode v) s = .next t → t.v = s.v) ∧
    ∀ v, exec (.wireClear v) s = .next t → t.v = s.v

/-- 41_vcom_sequencer.md (R133), over every step and not only from reset: `V` is the power-on value toggled once for each
chip-select bracket the trace has opened, so the command bits of successive brackets alternate. -/
def Obligations.VcomAlternatesWithBrackets : Prop :=
  ∀ s s' : State, VcomFollowsTrace s → step s = .next s' → VcomFollowsTrace s'

/-! ### The chip-select bracket and the blocking transmit -/

/-- R142, R143: the two chip-select steps, with their waits, whatever the line stood at before. -/
def Obligations.ChipSelectSteps : Prop :=
  ∀ s : State,
    s.csAssertStep = { s with cs := .asserted, trace := s.trace ++ [.csAssert, .wait 10] } ∧
    s.csDeassertStep = { s with cs := .deasserted, trace := s.trace ++ [.wait 5, .csDeassert] }

/-- 42_transfer_state_machine.md section 2 (R145 (a) to (c), R146): a blocking write of `n` bytes puts the first `txSent` of
them on the wire, at most `n` and all of them where it reports `n`, and changes nothing else but the draw; and every pair `(k,
r)` the contract allows, and every `k` of a write that never returns, is what some answer makes of it. -/
def Obligations.BlockingTransmitContract : Prop :=
  ∀ (s : State) (buf : List Byte) (n : Nat),
    let sent (k : Nat) : State :=
      { s with trace := s.trace ++ (buf.take k).map .tx, answers := s.answers.tail, draws := s.draws + 1 }
    s.txBlocking buf n = sent (txSent n s.nextAnswers.tx) ∧
    txSent n s.nextAnswers.tx ≤ n ∧
    (∀ k r, s.nextAnswers.tx = .returns k r →
      txResult s.nextAnswers.tx = .returned r ∧ (r = n → txSent n s.nextAnswers.tx = n) ∧
      (k ≤ n → (r = n → k = n) → txSent n s.nextAnswers.tx = k ∧ s.txBlocking buf n = sent k)) ∧
    ∀ k, s.nextAnswers.tx = .stalls k →
      txResult s.nextAnswers.tx = .hung ∧ (k ≤ n → txSent n s.nextAnswers.tx = k ∧ s.txBlocking buf n = sent k)

/-! ### WRITE -/

/-- R148, R149: WRITE. The two checks; and in `Open`, `Empty` with 12,000 bytes, with `m` the mode byte store and ENCODE (R114),
the whole next state for every report of the transport, short (inequality) or full, and for the hang, in which chip-select
stays asserted (R146). -/
def Obligations.WriteResult : Prop :=
  ∀ (s : State) (pix : Pixels), s.Ready →
    let v' := s.v ^^^ 1#1
    let m := encodeInto pix (s.wfb.write 0 (0x80#8 ||| (v'.setWidth 8 <<< 6)))
    (s.life = .closed → exec (.write pix) s = .next { s with fault := some .notOpen }) ∧
    (s.life = .opened → s.slot ≠ .empty → exec (.write pix) s = .next { s with fault := some .busy }) ∧
    (s.life = .opened → s.slot = .empty →
      (pix.length ≠ 12000 → exec (.write pix) s = .next { s with fault := some .badPixelLength }) ∧
      (pix.length = 12000 → ∀ k r, s.nextAnswers.tx = .returns k r →
        exec (.write pix) s = .next
          { s with
            v := v'
            wfb := m
            cs := .deasserted
            trace := s.trace ++ [.csAssert, .wait 10] ++ (m.frame.take (txSent 12482 (.returns k r))).map .tx ++
              [.wait 5, .csDeassert]
            responses := s.responses ++ [if r = 12482 then .ok else .shortWriteError]
            answers := s.answers.tail
            draws := s.draws + 1 }) ∧
      (pix.length = 12000 → ∀ k, s.nextAnswers.tx = .stalls k →
        exec (.write pix) s = .next
          { s with
            v := v'
            wfb := m
            cs := .asserted
            trace := s.trace ++ [.csAssert, .wait 10] ++ (m.frame.take (txSent 12482 (.stalls k))).map .tx
            seq := .stalled
            answers := s.answers.tail
            draws := s.draws + 1 }))

/-- 30_encoding.md section 2 with 42_transfer_state_machine.md section 3 (R86, R88, R148, R164): with the dummy bytes zero
(R24) and under the reliability premise (log entry 21), a WRITE returns `OK`, leaves the whole FRAME of its pixels and its
toggled `V` in `WFB`, and puts exactly that frame in one closed bracket. -/
def Obligations.WriteSendsTheWholeFrame : Prop :=
  ∀ (s : State) (pix : Pixels), s.Ready → s.life = .opened → s.slot = .empty → s.wfb.wf → s.wfb.DummiesZero →
    pix.length = 12000 → txReliable 12482 s.nextAnswers.tx →
    ∃ t, exec (.write pix) s = .next t ∧ t.fault = none ∧ t.v = s.v ^^^ 1#1 ∧ t.wfb.frame = frameOf (s.v ^^^ 1#1) pix ∧
      t.trace = s.trace ++ ([.csAssert, .wait 10] ++ (frameOf (s.v ^^^ 1#1) pix).map .tx ++ [.wait 5, .csDeassert]) ∧
      t.responses = s.responses ++ [.ok]

/-- 40_frame_encoder.md section 3 (R117 (c)) for a whole command: what a WRITE leaves and sends does not depend on the frame the
buffer held before, as long as the dummy bytes are zero. -/
def Obligations.WriteIgnoresTheOldFrame : Prop :=
  ∀ (s : State) (m₁ m₂ : Memory) (pix : Pixels), m₁.wf → m₂.wf → m₁.DummiesZero → m₂.DummiesZero → pix.length = 12000 →
    s.Ready → s.life = .opened → s.slot = .empty →
    exec (.write pix) { s with wfb := m₁ } = exec (.write pix) { s with wfb := m₂ }

/-- 42_transfer_state_machine.md section 3 (R148), with 41_vcom_sequencer.md (R131: "the byte never depends on the pixel
data") for the mode byte: two WRITEs of any two pixel operands from one state differ in the data bytes of the buffer and in
the bytes sent, and in nothing else. The rest of the state is equal; the traces are equal once the bytes are blanked; and
every byte of the buffer that is not a data byte is equal, the mode byte among them. -/
def Obligations.PixelsReachOnlyBufferAndBytes : Prop :=
  ∀ (s t₁ t₂ : State) (p q : Pixels), p.length = 12000 → q.length = 12000 →
    exec (.write p) s = .next t₁ → exec (.write q) s = .next t₂ →
    ({ t₁ with wfb := t₂.wfb, trace := t₂.trace } = t₂) ∧
    t₁.trace.map blankTx = t₂.trace.map blankTx ∧
    (s.wfb.wf → t₁.wfb.read 0 = t₂.wfb.read 0 ∧
      ∀ a, (∀ l < 240, ∀ j < 50, a ≠ eaDst l j) → t₁.wfb.read a = t₂.wfb.read a)

/-! ### WRITE_ASYNC_BEGIN, the engine, WRITE_ASYNC_END -/

/-- R152, with the failed-submission path of R153 under its decided value `ASYNC_SUBMIT_FAIL_CS = deassert`:
WRITE_ASYNC_BEGIN. The two checks; and in `Open`, `Empty` with 12,000 bytes the whole next state where the transport accepts
and where it rejects. -/
def Obligations.AsyncBeginResult : Prop :=
  ∀ (s : State) (pix : Pixels), s.Ready →
    let v' := s.v ^^^ 1#1
    let m := encodeInto pix (s.wfb.write 0 (0x80#8 ||| (v'.setWidth 8 <<< 6)))
    (s.life = .closed → exec (.writeAsyncBegin pix) s = .next { s with fault := some .notOpen }) ∧
    (s.life = .opened → s.slot ≠ .empty → exec (.writeAsyncBegin pix) s = .next { s with fault := some .busy }) ∧
    (s.life = .opened → s.slot = .empty →
      (pix.length ≠ 12000 → exec (.writeAsyncBegin pix) s = .next { s with fault := some .badPixelLength }) ∧
      (pix.length = 12000 → s.nextAnswers.accepted = true →
        exec (.writeAsyncBegin pix) s = .next
          { s with
            v := v'
            wfb := m
            slot := .inFlight
            txi := 0
            cs := .asserted
            trace := s.trace ++ [.csAssert, .wait 10, .tSubmit 12482 Config.completionTag]
            responses := s.responses ++ [.ok]
            answers := s.answers.tail
            draws := s.draws + 1 }) ∧
      (pix.length = 12000 → s.nextAnswers.accepted = false →
        exec (.writeAsyncBegin pix) s = .next
          { s with
            v := v'
            wfb := m
            cs := .deasserted
            trace := s.trace ++ [.csAssert, .wait 10, .tSubmit 12482 Config.completionTag, .wait 5, .csDeassert]
            responses := s.responses ++ [.asyncSubmitError]
            answers := s.answers.tail
            draws := s.draws + 1 }))

/-- 42_transfer_state_machine.md section 4 (R153), both values of the parameter: under `deassert` chip-select is released
before the report, under `hold` it stays as it was. -/
def Obligations.RejectedSubmissionEitherWay : Prop :=
  ∀ s : State,
    s.submitFailed .deassert =
      { s with
        cs := .deasserted
        trace := s.trace ++ [.wait 5, .csDeassert]
        responses := s.responses ++ [.asyncSubmitError] } ∧
    s.submitFailed .hold = { s with responses := s.responses ++ [.asyncSubmitError] }

/-- R156: the byte step is enabled exactly when `SLOT = InFlight` and `TXI < 12482`; it emits `TX(WFB[TXI])`, counts it, and
touches nothing else. -/
def Obligations.EngineByteStep : Prop :=
  ∀ s : State, s.Ready →
    (s.slot = .inFlight → s.txi < 12482 →
      engineByteMove s = .next { s with trace := s.trace ++ [.tx (s.wfb.read s.txi)], txi := s.txi + 1 }) ∧
    (s.slot ≠ .inFlight ∨ 12482 ≤ s.txi → engineByteMove s = .refused .engineStepNotEnabled)

/-- R157 with R158 (a): the completion step is enabled while `SLOT = InFlight`, at the last byte or (without the premise
`TransportReliable`) before it; it moves the slot to `Done` and raises the signal, and `CS` stays as it is. After it the engine
has no step. -/
def Obligations.EngineCompletionStep : Prop :=
  ∀ s : State, s.Ready →
    (s.slot = .inFlight →
      ∃ t, engineDoneMove s = .next t ∧ t = { s with slot := .done, trace := s.trace ++ [.sig Config.completionTag] } ∧
        engineByteMove t = .refused .engineStepNotEnabled ∧ engineDoneMove t = .refused .engineStepNotEnabled) ∧
    (s.slot ≠ .inFlight → engineDoneMove s = .refused .engineStepNotEnabled)

/-- 42_transfer_state_machine.md section 5 (R159), under the premises that the transport keeps taking steps and sends all:
from any point of a transfer in flight the remaining byte steps and the completion step, at most 12,483 of them, lead to
`Done`, with exactly the rest of the buffer on the wire and then the signal. -/
def Obligations.EngineRunsToCompletion : Prop :=
  ∀ s : State, s.Ready → s.slot = .inFlight → s.txi ≤ 12482 → s.wfb.wf →
    s.agenda = List.replicate (12482 - s.txi) .engineByte ++ [.engineDone] →
    Host.Core.run core (12482 - s.txi + 1) s = .next
      { s with
        slot := .done
        txi := 12482
        trace := s.trace ++ (s.wfb.slice s.txi (12482 - s.txi)).map .tx ++ [.sig Config.completionTag]
        agenda := [] }

/-- R160: WRITE_ASYNC_END. Its three faults; and in `Open`, `Done` the hold delay, chip-select released, the slot retired, `OK`,
and nothing else. -/
def Obligations.AsyncEndResult : Prop :=
  ∀ s : State, s.Ready →
    (s.life = .closed → exec .writeAsyncEnd s = .next { s with fault := some .notOpen }) ∧
    (s.life = .opened → s.slot = .empty → exec .writeAsyncEnd s = .next { s with fault := some .endNoTransfer }) ∧
    (s.life = .opened → s.slot = .inFlight → exec .writeAsyncEnd s = .next { s with fault := some .endBeforeDone }) ∧
    (s.life = .opened → s.slot = .done →
      exec .writeAsyncEnd s = .next
        { s with
          slot := .empty
          cs := .deasserted
          trace := s.trace ++ [.wait 5, .csDeassert]
          responses := s.responses ++ [.ok] })

/-- 42_transfer_state_machine.md section 8 (R165): from the same state, with the same pixels and the same answers, and under
the reliability premise (log entry 21), the asynchronous sequence leaves the same `V`, `WFB`, `CS` and `SLOT` and the same
panel-visible trace as one WRITE. -/
def Obligations.AsyncPathEqualsWrite : Prop :=
  ∀ (s : State) (pix : Pixels), s.Ready → s.life = .opened → s.slot = .empty → s.wfb.wf → pix.length = 12000 →
    s.nextAnswers.accepted = true → txReliable 12482 s.nextAnswers.tx →
    ∃ a w,
      Host.Core.run core 12485
        { s with agenda := .cmd (encode (.writeAsyncBegin pix)) :: (List.replicate 12482 .engineByte ++
            [.engineDone, .cmd (encode .writeAsyncEnd)]) } = .next a ∧
      Host.Core.run core 1 { s with agenda := [.cmd (encode (.write pix))] } = .next w ∧
      a.fault = none ∧ w.fault = none ∧
      a.v = w.v ∧ a.wfb = w.wfb ∧ a.cs = w.cs ∧ a.slot = w.slot ∧
      panelTrace a.trace = panelTrace w.trace

/-! ### CLEAR -/

/-- R162: CLEAR. Its check; and in `Open`, `Empty` the whole next state for every report of the transport, which is not
examined, and for a transfer that never returns. `WFB` is not touched. -/
def Obligations.ClearResult : Prop :=
  ∀ s : State, s.Ready →
    let v' := s.v ^^^ 1#1
    let clr := [0x20#8 ||| (v'.setWidth 8 <<< 6), 0x00#8]
    (s.life = .closed → exec .clear s = .next { s with fault := some .notOpen }) ∧
    (s.life = .opened → s.slot ≠ .empty → exec .clear s = .next { s with fault := some .busy }) ∧
    (s.life = .opened → s.slot = .empty →
      (∀ k r, s.nextAnswers.tx = .returns k r →
        exec .clear s = .next
          { s with
            v := v'
            cs := .deasserted
            trace := s.trace ++ [.csAssert, .wait 10] ++ (clr.take (txSent 2 (.returns k r))).map .tx ++ [.wait 5, .csDeassert]
            responses := s.responses ++ [.ok]
            answers := s.answers.tail
            draws := s.draws + 1 }) ∧
      (∀ k, s.nextAnswers.tx = .stalls k →
        exec .clear s = .next
          { s with
            v := v'
            cs := .asserted
            trace := s.trace ++ [.csAssert, .wait 10] ++ (clr.take (txSent 2 (.stalls k))).map .tx
            seq := .stalled
            answers := s.answers.tail
            draws := s.draws + 1 }))

/-! ### INIT and CLOSE -/

/-- R180, R181: INIT. Its check; and in `Closed` the whole next state for each of the four failure points and for success. -/
def Obligations.InitResult : Prop :=
  ∀ (s : State) (path : Path), s.Ready →
    let a := s.nextAnswers
    let cfg : Event := .tConfig 0 8 .msbFirst Config.spiClockHz
    let u : State := { s with answers := s.answers.tail, draws := s.draws + 1 }
    (s.life = .opened → exec (.init path) s = .next { s with fault := some .alreadyOpen }) ∧
    (s.life = .closed →
      (a.openOk = false → exec (.init path) s = .next
        { u with trace := s.trace ++ [.tOpen path], responses := s.responses ++ [.setupError] }) ∧
      (a.openOk = true → a.configOk = false → exec (.init path) s = .next
        { u with trace := s.trace ++ [.tOpen path, cfg], responses := s.responses ++ [.setupError] }) ∧
      (a.openOk = true → a.configOk = true → a.claimCsOk = false → exec (.init path) s = .next
        { u with
          wfb := Memory.zeroed
          trace := s.trace ++ [.tOpen path, cfg, .gClaim Config.csPin]
          responses := s.responses ++ [.setupError] }) ∧
      (a.openOk = true → a.configOk = true → a.claimCsOk = true → a.claimDispOk = false → exec (.init path) s = .next
        { u with
          wfb := Memory.zeroed
          cs := .deasserted
          trace := s.trace ++ [.tOpen path, cfg, .gClaim Config.csPin, .csDeassert, .gClaim Config.dispPin]
          responses := s.responses ++ [.setupError] }) ∧
      (a.openOk = true → a.configOk = true → a.claimCsOk = true → a.claimDispOk = true → exec (.init path) s = .next
        { u with
          life := .opened
          wfb := Memory.zeroed
          cs := .deasserted
          disp := .high
          trace := s.trace ++ [.tOpen path, cfg, .gClaim Config.csPin, .csDeassert, .gClaim Config.dispPin, .dispLow,
            .wait Config.tDispSettleUs, .dispHigh]
          responses := s.responses ++ [.ok] })) ∧
    ∀ i, Memory.zeroed.read i = 0x00#8

/-- R186, R187: CLOSE. Its check; and in `Open` the whole next state for each value of `SLOT`. Where a transfer is in flight
it may run on to any drawn point `m` from `TXI` to 12,482 and its signal may still come. `V`, `WFB`, `CS`, `DISP` and `TXI`
are left alone. -/
def Obligations.CloseResult : Prop :=
  ∀ s : State, s.Ready →
    let m := stopPoint s.txi s.nextAnswers.stopAt
    let c : State := { s with life := .closed, slot := .empty, responses := s.responses ++ [.ok] }
    (s.life = .closed → exec .close s = .next { s with fault := some .notOpen }) ∧
    (s.life = .opened →
      (s.slot = .empty → exec .close s = .next { c with trace := s.trace ++ [.tClose] }) ∧
      (s.slot = .done → exec .close s = .next { c with trace := s.trace ++ [.tCancel, .tClose] }) ∧
      (s.slot = .inFlight → exec .close s = .next
        { c with
          trace := s.trace ++ [.tCancel] ++ (s.wfb.slice s.txi (m - s.txi)).map .tx ++
            (if s.nextAnswers.lateSig = true then [.sig Config.completionTag] else []) ++ [.tClose]
          answers := s.answers.tail
          draws := s.draws + 1 })) ∧
    s.txi ≤ m ∧ (s.txi ≤ 12482 → m ≤ 12482) ∧
    (s.txi ≤ s.nextAnswers.stopAt → s.nextAnswers.stopAt ≤ 12482 → m = s.nextAnswers.stopAt)

/-- 43_lifecycle.md section 2 (R186, R158 (b)): under premise `CancelEffective` a CLOSE in flight adds only `T_CANCEL` and
`T_CLOSE` to the trace. -/
def Obligations.EffectiveCancelStopsTheTransfer : Prop :=
  ∀ s : State, s.Ready → s.life = .opened → s.slot = .inFlight → s.CancelEffective →
    ∃ t, exec .close s = .next t ∧ t.fault = none ∧ t.slot = .empty ∧ t.life = .closed ∧ t.cs = s.cs ∧
      t.trace = s.trace ++ [.tCancel, .tClose]

/-! ### The wire rows -/

/-- 30_encoding.md section 2 (R88) with R148 and R156, in the model's reading of the wire rows (log entry 7): WIRE_FRAME_MODE
runs where it is the next byte out, either at WRITE's transmit step, from which the command runs to its end or hangs, or as the
engine's first byte step; and it is refused by name in every other state of a running block. -/
def Obligations.WireFrameModeRunsWhereEmitted : Prop :=
  ∀ (s : State) (v : Bit), s.fault = none →
    (s.cs = .asserted → s.wfb.read 0 = (0x80#8 ||| (v.setWidth 8 <<< 6)) → s.seq = .frameReady →
      ∃ t, exec (.wireFrameMode v) s = .next t ∧
        (∀ k r, s.nextAnswers.tx = .returns k r → t =
          { s with
            cs := .deasserted
            trace := s.trace ++ (s.wfb.frame.take (txSent 12482 (.returns k r))).map .tx ++ [.wait 5, .csDeassert]
            responses := s.responses ++ [if r = 12482 then .ok else .shortWriteError]
            seq := .idle
            answers := s.answers.tail
            draws := s.draws + 1 }) ∧
        ∀ k, s.nextAnswers.tx = .stalls k → t =
          { s with
            trace := s.trace ++ (s.wfb.frame.take (txSent 12482 (.stalls k))).map .tx
            seq := .stalled
            answers := s.answers.tail
            draws := s.draws + 1 }) ∧
    (s.cs = .asserted → s.wfb.read 0 = (0x80#8 ||| (v.setWidth 8 <<< 6)) → s.seq = .idle → s.slot = .inFlight → s.txi = 0 →
      exec (.wireFrameMode v) s = .next
        { s with trace := s.trace ++ [.tx (0x80#8 ||| (v.setWidth 8 <<< 6))], txi := 1 }) ∧
    (s.seq ≠ .stalled →
      (s.seq ≠ .frameReady ∧ (s.seq ≠ .idle ∨ s.slot ≠ .inFlight ∨ s.txi ≠ 0) ∨ s.cs ≠ .asserted ∨
        s.wfb.read 0 ≠ (0x80#8 ||| (v.setWidth 8 <<< 6))) →
      exec (.wireFrameMode v) s = .refused .wireByteNotDue)

/-- 30_encoding.md section 2 (R89) with R162, in the model's reading of the wire rows (log entry 7): WIRE_CLEAR runs where it is
the next byte out, at CLEAR's transmit step, from which the command runs to its end or hangs; and it is refused by name in every
other state of a running block. -/
def Obligations.WireClearRunsWhereEmitted : Prop :=
  ∀ (s : State) (v : Bit), s.fault = none →
    (s.cs = .asserted → s.v = v → s.seq = .clearReady →
      ∃ t, exec (.wireClear v) s = .next t ∧
        (∀ k r, s.nextAnswers.tx = .returns k r → t =
          { s with
            cs := .deasserted
            trace := s.trace ++ (([0x20#8 ||| (v.setWidth 8 <<< 6), 0x00#8] : List Byte).take
              (txSent 2 (.returns k r))).map .tx ++ [.wait 5, .csDeassert]
            responses := s.responses ++ [.ok]
            seq := .idle
            answers := s.answers.tail
            draws := s.draws + 1 }) ∧
        ∀ k, s.nextAnswers.tx = .stalls k → t =
          { s with
            trace := s.trace ++ (([0x20#8 ||| (v.setWidth 8 <<< 6), 0x00#8] : List Byte).take
              (txSent 2 (.stalls k))).map .tx
            seq := .stalled
            answers := s.answers.tail
            draws := s.draws + 1 }) ∧
    (s.seq ≠ .stalled → (s.cs ≠ .asserted ∨ s.v ≠ v ∨ s.seq ≠ .clearReady) →
      exec (.wireClear v) s = .refused .wireByteNotDue)

/-- 30_encoding.md section 5 (R96) with 42_transfer_state_machine.md section 2 (R144), in the model's reading of the wire rows
(log entry 7, a choice of the model): after the whole preparation, and with the VCOM bit they toggled to, WRITE and CLEAR are
the wire row of their command byte. -/
def Obligations.CommandsPassThroughTheWireRows : Prop :=
  ∀ (s : State) (pix : Pixels), s.Ready → s.life = .opened → s.slot = .empty → s.wfb.wf →
    (pix.length = 12000 →
      exec (.write pix) s = exec (.wireFrameMode (s.v ^^^ 1#1)) { s.prepareFrame pix with seq := .frameReady }) ∧
    exec .clear s = exec (.wireClear (s.v ^^^ 1#1)) { s.vcomToggle.csAssertStep with seq := .clearReady }

/-! ### Faults, hangs and responses -/

/-- R141: the legality table. In a cell with a name the command records that fault and changes nothing else; in a cell marked ok
it answers a next state with no fault (on 12,000 bytes, where it takes pixels), which its own statement above gives. -/
def Obligations.LegalityTable : Prop :=
  ∀ (s : State) (path : Path) (pix : Pixels), s.Ready →
    (s.life = .closed →
      (∃ t, exec (.init path) s = .next t ∧ t.fault = none) ∧
      exec (.write pix) s = .next { s with fault := some .notOpen } ∧
      exec (.writeAsyncBegin pix) s = .next { s with fault := some .notOpen } ∧
      exec .writeAsyncEnd s = .next { s with fault := some .notOpen } ∧
      exec .clear s = .next { s with fault := some .notOpen } ∧
      exec .close s = .next { s with fault := some .notOpen }) ∧
    (s.life = .opened →
      exec (.init path) s = .next { s with fault := some .alreadyOpen } ∧
      ∃ t, exec .close s = .next t ∧ t.fault = none) ∧
    (s.life = .opened → s.slot = .empty →
      (pix.length = 12000 → ∃ t, exec (.write pix) s = .next t ∧ t.fault = none) ∧
      (pix.length = 12000 → ∃ t, exec (.writeAsyncBegin pix) s = .next t ∧ t.fault = none) ∧
      exec .writeAsyncEnd s = .next { s with fault := some .endNoTransfer } ∧
      ∃ t, exec .clear s = .next t ∧ t.fault = none) ∧
    (s.life = .opened → s.slot ≠ .empty →
      exec (.write pix) s = .next { s with fault := some .busy } ∧
      exec (.writeAsyncBegin pix) s = .next { s with fault := some .busy } ∧
      exec .clear s = .next { s with fault := some .busy }) ∧
    (s.life = .opened → s.slot = .inFlight → exec .writeAsyncEnd s = .next { s with fault := some .endBeforeDone }) ∧
    (s.life = .opened → s.slot = .done → ∃ t, exec .writeAsyncEnd s = .next t ∧ t.fault = none)

/-- 60_exceptions.md sections 1 and 3 (R205, R215), for every instruction: a command that faults records its fault and changes
nothing else. -/
def Obligations.FaultsChangeNothingElse : Prop :=
  ∀ (i : Instr) (s t : State), exec i s = .next t → t.fault ≠ none → ∃ f, t = { s with fault := some f }

/-- R32: `FAULT` is none at power-on; a fault step sets it to its name where it is none, and changes nothing else; no step
clears it, since once it is set no step of any agent is defined. -/
def Obligations.NothingRunsAfterAFault : Prop :=
  State.reset.fault = none ∧
  (∀ (s : State) (f : FaultName), s.fault = none → s.raise f = { s with fault := some f }) ∧
  (∀ (s : State) (f g : FaultName), s.fault = some g → s.raise f = s) ∧
  ∀ (s : State) (f : FaultName), s.fault = some f →
    step s = .fault (.afterFault f) ∧ (∀ i, exec i s = .fault (.afterFault f)) ∧
    engineByteMove s = .fault (.afterFault f) ∧ engineDoneMove s = .fault (.afterFault f)

/-- 60_exceptions.md section 1 (R210) and R146: after a blocking transfer that never returns no step of the host or the
sequencer is taken. -/
def Obligations.NothingRunsAfterAHang : Prop :=
  ∀ s : State, s.fault = none → s.seq = .stalled →
    step s = .fault .transferStalled ∧ ∀ i, exec i s = .fault .transferStalled

/-- 30_encoding.md section 1 (R83): the codes of the four statuses. -/
def Obligations.StatusCodes : Prop :=
  statusCode .ok = 0#3 ∧ statusCode .setupError = 1#3 ∧ statusCode .shortWriteError = 2#3 ∧
  statusCode .asyncSubmitError = 3#3 ∧ ∀ st, (statusCode st).toNat < 4

/-- 60_exceptions.md section 1 (R200 to R203): a host command that ends without a fault returns exactly one status, one of
those its rule allows; a faulting or hanging command returns none. -/
def Obligations.OneStatusPerCommand : Prop :=
  ∀ (s t : State),
    (∀ i, exec i s = .next t → t.fault ≠ none → t.responses = s.responses) ∧
    (∀ i, exec i s = .next t → t.seq = .stalled → t.responses = s.responses) ∧
    (∀ path, exec (.init path) s = .next t → t.fault = none →
      t.responses = s.responses ++ [.ok] ∨ t.responses = s.responses ++ [.setupError]) ∧
    (∀ pix, exec (.write pix) s = .next t → t.fault = none → t.seq = .idle →
      t.responses = s.responses ++ [.ok] ∨ t.responses = s.responses ++ [.shortWriteError]) ∧
    (∀ pix, exec (.writeAsyncBegin pix) s = .next t → t.fault = none →
      t.responses = s.responses ++ [.ok] ∨ t.responses = s.responses ++ [.asyncSubmitError]) ∧
    (exec .writeAsyncEnd s = .next t → t.fault = none → t.responses = s.responses ++ [.ok]) ∧
    (exec .clear s = .next t → t.fault = none → t.seq = .idle → t.responses = s.responses ++ [.ok]) ∧
    (exec .close s = .next t → t.fault = none → t.responses = s.responses ++ [.ok])

/-! ### Frames -/

/-- 10_state.md section 5 (R37): what the access table does not mark as written, each instruction leaves alone when it answers
a next state. The table has no column for the two wire rows: for them, what the end of WRITE, the end of CLEAR and the engine's
byte step do not write (log entry 7). -/
def Obligations.AccessTableFrame : Prop :=
  ∀ (s t : State),
    (∀ path, exec (.init path) s = .next t →
      t.v = s.v ∧ t.slot = s.slot ∧ t.txi = s.txi ∧ t.seq = s.seq ∧ t.agenda = s.agenda) ∧
    (∀ pix, exec (.write pix) s = .next t →
      t.life = s.life ∧ t.slot = s.slot ∧ t.txi = s.txi ∧ t.disp = s.disp ∧ t.agenda = s.agenda) ∧
    (∀ pix, exec (.writeAsyncBegin pix) s = .next t →
      t.life = s.life ∧ t.disp = s.disp ∧ t.seq = s.seq ∧ t.agenda = s.agenda) ∧
    (exec .writeAsyncEnd s = .next t →
      t.life = s.life ∧ t.v = s.v ∧ t.wfb = s.wfb ∧ t.txi = s.txi ∧ t.disp = s.disp ∧ t.seq = s.seq ∧ t.agenda = s.agenda ∧
        t.answers = s.answers ∧ t.draws = s.draws) ∧
    (exec .clear s = .next t →
      t.life = s.life ∧ t.wfb = s.wfb ∧ t.slot = s.slot ∧ t.txi = s.txi ∧ t.disp = s.disp ∧ t.agenda = s.agenda) ∧
    (exec .close s = .next t →
      t.v = s.v ∧ t.wfb = s.wfb ∧ t.txi = s.txi ∧ t.cs = s.cs ∧ t.disp = s.disp ∧ t.seq = s.seq ∧ t.agenda = s.agenda) ∧
    (∀ v, exec (.wireFrameMode v) s = .next t →
      t.life = s.life ∧ t.v = s.v ∧ t.wfb = s.wfb ∧ t.slot = s.slot ∧ t.disp = s.disp ∧ t.fault = s.fault ∧
        t.agenda = s.agenda) ∧
    (∀ v, exec (.wireClear v) s = .next t →
      t.life = s.life ∧ t.v = s.v ∧ t.wfb = s.wfb ∧ t.slot = s.slot ∧ t.txi = s.txi ∧ t.disp = s.disp ∧
        t.fault = s.fault ∧ t.agenda = s.agenda)

/-- 20_memory.md sections 3 and 4 (R63, R66): the bytes of `WFB` each instruction stores to. WRITE and WRITE_ASYNC_BEGIN store
to the mode byte and the address and data bytes ENCODE computes; INIT stores to all or to none; no other instruction stores.
-/
def Obligations.BufferStoresOfEachInstruction : Prop :=
  ∀ (s t : State), s.wfb.wf →
    (∀ pix, (exec (.write pix) s = .next t ∨ exec (.writeAsyncBegin pix) s = .next t) →
      ∀ a, a ≠ eaMode → (∀ l < 240, a ≠ eaAdr l ∧ ∀ j < 50, a ≠ eaDst l j) → t.wfb.read a = s.wfb.read a) ∧
    (∀ path, exec (.init path) s = .next t →
      (∀ a, t.wfb.read a = s.wfb.read a) ∨ ∀ a, t.wfb.read a = 0x00#8) ∧
    ((exec .writeAsyncEnd s = .next t ∨ exec .clear s = .next t ∨ exec .close s = .next t ∨
        (∃ v, exec (.wireFrameMode v) s = .next t) ∨ ∃ v, exec (.wireClear v) s = .next t) →
      ∀ a, t.wfb.read a = s.wfb.read a)

/-- 10_state.md section 2 (R31): the trace is append-only under every step of every agent. -/
def Obligations.TraceIsAppendOnly : Prop :=
  ∀ s s' : State, step s = .next s' → s.trace <+: s'.trace

/-! ### Power-on and invariants -/

/-- R35: the power-on values. `WFB` is unspecified: the power-on state takes its contents, and `V_RESET`, as arguments (R240),
and `State.reset` is one such state with `V_RESET = 1`; which contents it takes is the model's choice (log entry 1) and not
part of the statement. -/
def Obligations.PowerOnValues : Prop :=
  (∀ (v : Bit) (m : Memory), let s := State.powerOn v m
    s.life = .closed ∧ s.v = v ∧ s.wfb = m ∧ s.slot = .empty ∧ s.txi = 0 ∧ s.cs = .unclaimed ∧ s.disp = .unclaimed ∧
      s.trace = [] ∧ s.fault = none) ∧
  ∃ m, m.wf ∧ State.reset = State.powerOn 1#1 m

/-- 70_reset_and_hazards.md section 1 (R241), for any power-on contents of `WFB`: the only command that does not fault in the
power-on state is INIT. -/
def Obligations.OnlyInitRunsAtPowerOn : Prop :=
  ∀ (wfb : Memory) (v : Bit) (i : Instr),
    (∃ t, exec i (State.powerOn v wfb) = .next t ∧ t.fault = none) ↔ ∃ path, i = .init path

/-- 10_state.md sections 4 and 5 (R35, R38): the invariants hold in the power-on state. Its empty buffer is the model's choice
(log entry 1). -/
def Obligations.InvariantsAtPowerOn : Prop :=
  Inv State.reset ∧ BusInv State.reset ∧ LinesFollowTrace State.reset ∧ VcomFollowsTrace State.reset

/-- 10_state.md section 5 (R38) with R24, over every state that meets it: the invariants (a) to (d), the dummy bytes and the
canonical form of the buffer are kept by every step of every agent. -/
def Obligations.StepKeepsTheInvariants : Prop :=
  ∀ s s' : State, Inv s → step s = .next s' → Inv s'

/-- R24: a successful INIT leaves the 240 gap bytes and the final byte 0x00, and from then on no step of any agent changes one
of them, whether the block is open or closed; of all instructions only INIT writes them. -/
def Obligations.DummyBytesStayZero : Prop :=
  (∀ (s t : State) (path : Path), exec (.init path) s = .next t → t.fault = none → t.life = .opened → t.wfb.DummiesZero) ∧
  (∀ s s' : State, s.wfb.wf → s.wfb.DummiesZero → step s = .next s' → s'.wfb.wf ∧ s'.wfb.DummiesZero) ∧
  ∀ (i : Instr) (s t : State), s.wfb.wf → (∀ path, i ≠ .init path) → exec i s = .next t →
    (∀ l < 240, t.wfb.read (1 + 52 * l + 51) = s.wfb.read (1 + 52 * l + 51)) ∧ t.wfb.read 12481 = s.wfb.read 12481

/-- 20_memory.md section 5 (R70) and R256: while a transfer is outstanding no step changes the buffer. -/
def Obligations.BufferStableWhileOutstanding : Prop :=
  ∀ s s' : State, Inv s → s.slot ≠ .empty → step s = .next s' → s'.wfb = s.wfb

/-- 10_state.md section 2 (R29, R30, R31): the two lines stand as the trace has driven them, after every step. -/
def Obligations.LinesStandAsTraced : Prop :=
  ∀ s s' : State, LinesFollowTrace s → step s = .next s' → LinesFollowTrace s'

/-- 42_transfer_state_machine.md section 8 (R164), over every state that meets it: the trace stays a run of brackets of the
given shape, each holding a first part of a FRAME or a CLEARSEQ, open at the end exactly where chip-select is asserted; and a
transfer in flight has sent `WFB[0]` to `WFB[TXI - 1]` of a whole frame (R158). -/
def Obligations.BracketShapeIsKept : Prop :=
  ∀ s s' : State, Inv s → BusInv s → step s = .next s' → BusInv s'

/-- 10_state.md section 5 (R38 (d)): where the completion step is taken only at the last byte (the third part of premise
`TransportReliable`, R147), `SLOT = Done` means that all 12,482 bytes are out, after every step. -/
def Obligations.ReliableCompletionSentAll : Prop :=
  ∀ s s' : State, (s.slot = .done → s.txi = 12482) → (s.Completes → s.txi = 12482) →
    step s = .next s' → s'.slot = .done → s'.txi = 12482

/-! ### The premises of R147 at work -/

/-- 42_transfer_state_machine.md section 2 (R147) with 60_exceptions.md section 1 (R202, R203, R210): in a run under
`TransportReliable` no blocking transfer hangs, and of the statuses added none is `SHORT_WRITE_ERROR` or `ASYNC_SUBMIT_ERROR`.
That the premise excludes a hang without `TransportLive` is the model's choice (log entry 21). -/
def Obligations.ReliableTransportReportsNoError : Prop :=
  ∀ s : State, TransportReliable s → s.seq ≠ .stalled → ∀ (n : Nat) (t : State), s.Reaches n t →
    t.seq ≠ .stalled ∧ ∃ new, t.responses = s.responses ++ new ∧ ∀ st ∈ new, st = .ok ∨ st = .setupError

/-- 42_transfer_state_machine.md section 5 (R159): in a run under `TransportLive` that goes on for ever, an outstanding
transfer "reaches `SLOT = Done` unless a CLOSE cancels it first": there is a first point at which it is no longer in flight,
and there it is completed, or cancelled by a CLOSE (log entries 2 and 20). Under `TransportReliable` a completed one has sent
all 12,482 bytes. The premise that the run goes on shuts out the runs that end in a fault, a hang or a move with no meaning,
of which R159 says nothing. -/
def Obligations.LiveTransfersEnd : Prop :=
  ∀ s : State, s.Ready → s.slot = .inFlight → TransportLive s → (∀ n, ∃ t, s.Reaches n t) →
    ∃ n ≤ s.agenda.length, ∃ t, s.Reaches n t ∧ (∀ m < n, ∀ u, s.Reaches m u → u.slot = .inFlight) ∧
      (t.slot = .done ∨ (t.slot = .empty ∧ t.life = .closed)) ∧
      (TransportReliable s → t.slot = .done → t.txi = 12482)
end

