-- ==== Sys2Proof/Laws/Memory.lean ====
section
/-! SUPPORT. The laws of `WFB`: read after write, what a run of stores leaves, the canonical form kept by every memory
operation, and memories in canonical form that read alike are equal. -/

namespace Sys2Proof.Machine

/-- The addresses of a list of cells rise strictly. -/
abbrev Memory.rising (m : List Host.Cell) : Prop := m.Pairwise (fun c d => c.1 < d.1)

theorem Memory.wf_rising {m : Memory} (h : m.wf) : Memory.rising m := h.1

@[simp] theorem Memory.wf_nil : Memory.wf [] := by simp [Memory.wf]

@[simp] theorem Memory.read_nil (a : Nat) : Memory.read [] a = Memory.unlisted := rfl

theorem Memory.read_cons (a' : Nat) (b : Byte) (m : Memory) (a : Nat) :
    Memory.read ((a', b) :: m) a = if a = a' then b else Memory.read m a := by
  unfold Memory.read
  by_cases h : a = a' <;> simp [List.lookup, h]
  have : (a == a') = false := by simpa using h
  simp [this]

/-- An address that no entry has reads as the unlisted byte. -/
theorem Memory.read_of_absent {m : Memory} {a : Nat} (h : ∀ c ∈ m, c.1 ≠ a) : m.read a = Memory.unlisted := by
  induction m with
  | nil => rfl
  | cons c m ih =>
    obtain ⟨a', b⟩ := c
    have h1 : a ≠ a' := fun e => h (a', b) (by simp) e.symm
    rw [Memory.read_cons, if_neg h1]
    exact ih fun c hc => h c (by simp [hc])

theorem Memory.read_append {m m' : Memory} {a : Nat} (h : ∀ c ∈ m, c.1 ≠ a) :
    Memory.read (m ++ m') a = Memory.read m' a := by
  induction m with
  | nil => rfl
  | cons c m ih =>
    obtain ⟨a', b⟩ := c
    have h1 : a ≠ a' := fun e => h (a', b) (by simp) e.symm
    rw [List.cons_append, Memory.read_cons, if_neg h1]
    exact ih fun c hc => h c (by simp [hc])

theorem Memory.read_append_left {m m' : Memory} {a : Nat} (h : ∀ c ∈ m', c.1 ≠ a) :
    Memory.read (m ++ m') a = Memory.read m a := by
  induction m with
  | nil => exact Memory.read_of_absent h
  | cons c m ih =>
    obtain ⟨a', b⟩ := c
    rw [List.cons_append, Memory.read_cons, Memory.read_cons, ih]

theorem Memory.mem_cell {a : Nat} {b : Byte} {c : Host.Cell} (h : c ∈ Memory.cell a b) :
    c.1 = a ∧ c.2 = b ∧ b ≠ Memory.unlisted := by
  unfold Memory.cell at h
  split at h <;> simp_all

theorem Memory.read_cell (a : Nat) (b : Byte) : Memory.read (Memory.cell a b) a = b := by
  unfold Memory.cell
  split
  · next h => simp [h]
  · simp [Memory.read_cons]

/-- On rising cells the part below an address is the cells below it. -/
theorem Memory.takeWhile_lt {m : Memory} (h : Memory.rising m) (a : Nat) :
    m.takeWhile (fun c => decide (c.1 < a)) = m.filter (fun c => decide (c.1 < a)) := by
  induction m with
  | nil => rfl
  | cons c m ih =>
    have hc := List.pairwise_cons.mp h
    by_cases hlt : c.1 < a
    · simp [List.takeWhile, hlt, ih hc.2]
    · have : m.filter (fun c => decide (c.1 < a)) = [] := by
        simp only [List.filter_eq_nil_iff, decide_eq_true_eq]
        intro d hd
        have := hc.1 d hd
        omega
      simp [List.takeWhile, hlt, this]

/-- On rising cells the part above an address is the cells above it. -/
theorem Memory.dropWhile_le {m : Memory} (h : Memory.rising m) (a : Nat) :
    m.dropWhile (fun c => decide (c.1 ≤ a)) = m.filter (fun c => decide (a < c.1)) := by
  induction m with
  | nil => rfl
  | cons c m ih =>
    have hc := List.pairwise_cons.mp h
    by_cases hle : c.1 ≤ a
    · have : ¬ a < c.1 := by omega
      simp [List.dropWhile, hle, this, ih hc.2]
    · have hall : m.filter (fun c => decide (a < c.1)) = m := by
        simp only [List.filter_eq_self, decide_eq_true_eq]
        intro d hd
        have := hc.1 d hd
        omega
      have : a < c.1 := by omega
      simp [List.dropWhile, hle, this, hall]

/-- On rising cells the part from an address upward is the cells from it upward. -/
theorem Memory.dropWhile_lt {m : Memory} (h : Memory.rising m) (a : Nat) :
    m.dropWhile (fun c => decide (c.1 < a)) = m.filter (fun c => decide (a ≤ c.1)) := by
  induction m with
  | nil => rfl
  | cons c m ih =>
    have hc := List.pairwise_cons.mp h
    by_cases hlt : c.1 < a
    · have : ¬ a ≤ c.1 := by omega
      simp [List.dropWhile, hlt, this, ih hc.2]
    · have hall : m.filter (fun c => decide (a ≤ c.1)) = m := by
        simp only [List.filter_eq_self, decide_eq_true_eq]
        intro d hd
        have := hc.1 d hd
        omega
      have : a ≤ c.1 := by omega
      simp [List.dropWhile, hlt, this, hall]

theorem Memory.rising_filter {m : Memory} (h : Memory.rising m) (p : Host.Cell → Bool) : Memory.rising (m.filter p) :=
  h.sublist List.filter_sublist

/-- Dropping cells below an address does not change what is read from it upward. -/
theorem Memory.read_filter {m : Memory} {p : Host.Cell → Bool} {a : Nat}
    (h : ∀ b : Byte, p (a, b) = true) : Memory.read (m.filter p) a = Memory.read m a := by
  induction m with
  | nil => rfl
  | cons c m ih =>
    obtain ⟨a', b⟩ := c
    by_cases hp : p (a', b) = true
    · simp [hp, Memory.read_cons, ih]
    · have : a ≠ a' := fun e => hp (e ▸ h b)
      simp [hp, Memory.read_cons, ih, this]

/-- Rising stores below every cell of a rest: a run of stores in front of a remainder. -/
theorem Memory.rising_join {lo hi : Memory} {a : Nat} {b : Byte} (hlo : Memory.rising lo) (hhi : Memory.rising hi)
    (h1 : ∀ c ∈ lo, c.1 < a) (h2 : ∀ c ∈ hi, a < c.1) : Memory.rising (lo ++ Memory.cell a b ++ hi) := by
  have hcell : Memory.rising (Memory.cell a b) := by unfold Memory.cell; split <;> simp [Memory.rising]
  refine List.pairwise_append.mpr ⟨List.pairwise_append.mpr ⟨hlo, hcell, ?_⟩, hhi, ?_⟩
  · intro c hc d hd
    have := h1 c hc
    rw [(Memory.mem_cell hd).1]
    exact this
  · intro c hc d hd
    have hd' := h2 d hd
    rcases List.mem_append.mp hc with hc | hc
    · have := h1 c hc
      omega
    · rw [(Memory.mem_cell hc).1]
      exact hd'

/-- Every cell a run of stores leaves was there, or is one of the stores and not an unlisted byte. -/
theorem Memory.mem_writeAll {ss : List Host.Cell} {m : Memory} {c : Host.Cell} (h : c ∈ Memory.writeAll ss m) :
    c ∈ m ∨ (c ∈ ss ∧ c.2 ≠ Memory.unlisted) := by
  induction ss generalizing m with
  | nil => exact .inl h
  | cons s ss ih =>
    obtain ⟨a, b⟩ := s
    simp only [Memory.writeAll, List.mem_append] at h
    rcases h with (h | h) | h
    · exact .inl (List.takeWhile_sublist _ |>.subset h)
    · have hc := Memory.mem_cell h
      refine .inr ⟨?_, hc.2.1 ▸ hc.2.2⟩
      have : c = (a, b) := Prod.ext hc.1 hc.2.1
      simp [this]
    · rcases ih h with h | ⟨h, h'⟩
      · exact .inl (List.dropWhile_sublist _ |>.subset h)
      · exact .inr ⟨by simp [h], h'⟩

/-- Rising stores on a rising memory leave a rising memory. -/
theorem Memory.rising_writeAll {ss : List Host.Cell} {m : Memory} (hs : Memory.rising ss) (hm : Memory.rising m) :
    Memory.rising (Memory.writeAll ss m) := by
  induction ss generalizing m with
  | nil => exact hm
  | cons s ss ih =>
    obtain ⟨a, b⟩ := s
    have hs' := List.pairwise_cons.mp hs
    simp only [Memory.writeAll, Memory.takeWhile_lt hm, Memory.dropWhile_le hm]
    refine Memory.rising_join (Memory.rising_filter hm _) (ih hs'.2 (Memory.rising_filter hm _)) ?_ ?_
    · intro c hc
      simpa using (List.mem_filter.mp hc).2
    · intro c hc
      rcases Memory.mem_writeAll hc with h | ⟨h, -⟩
      · simpa using (List.mem_filter.mp h).2
      · exact hs'.1 c h

/-- Rising stores inside the buffer keep the canonical form. -/
theorem Memory.wf_writeAll {ss : List Host.Cell} {m : Memory} (hs : Memory.rising ss)
    (hb : ∀ c ∈ ss, c.1 < Config.buffSize) (hm : m.wf) : (Memory.writeAll ss m).wf := by
  refine ⟨Memory.rising_writeAll hs hm.1, fun c hc => ?_⟩
  rcases Memory.mem_writeAll hc with h | ⟨h, h'⟩
  · exact hm.2 c h
  · exact ⟨h', hb c h⟩

/-- After rising stores an address reads as the store to it, or as before where there is none. -/
theorem Memory.read_writeAll {ss : List Host.Cell} {m : Memory} (hs : Memory.rising ss) (hm : Memory.rising m) (a : Nat) :
    (Memory.writeAll ss m).read a = (ss.lookup a).getD (m.read a) := by
  induction ss generalizing m with
  | nil => rfl
  | cons s ss ih =>
    obtain ⟨a', b⟩ := s
    have hs' := List.pairwise_cons.mp hs
    simp only [Memory.writeAll, Memory.takeWhile_lt hm, Memory.dropWhile_le hm]
    have hhi : ∀ c ∈ Memory.writeAll ss (m.filter (fun c => decide (a' < c.1))), a' < c.1 := by
      intro c hc
      rcases Memory.mem_writeAll hc with h | ⟨h, -⟩
      · simpa using (List.mem_filter.mp h).2
      · exact hs'.1 c h
    have hlo : ∀ c ∈ m.filter (fun c => decide (c.1 < a')), c.1 < a' := fun c hc => by
      simpa using (List.mem_filter.mp hc).2
    by_cases hlt : a < a'
    · have hne : (a == a') = false := by simp; omega
      have hno : ss.lookup a = none := by
        rw [List.lookup_eq_none_iff]
        intro c hc
        have := hs'.1 c hc
        simp at this ⊢
        omega
      rw [List.append_assoc, Memory.read_append_left]
      · rw [Memory.read_filter (by simpa using hlt), List.lookup_cons]
        simp [hne, hno]
      · intro c hc
        rcases List.mem_append.mp hc with hc | hc
        · rw [(Memory.mem_cell hc).1]; omega
        · have := hhi c hc; omega
    · by_cases heq : a = a'
      · subst heq
        rw [List.append_assoc, Memory.read_append (fun c hc => by have := hlo c hc; omega),
          Memory.read_append_left (fun c hc => by have := hhi c hc; omega), Memory.read_cell]
        simp
      · have hgt : a' < a := by omega
        have hne : (a == a') = false := by simpa using heq
        rw [Memory.read_append]
        · rw [ih hs'.2 (Memory.rising_filter hm _), Memory.read_filter (by simpa using hgt), List.lookup_cons]
          simp [hne]
        · intro c hc
          rcases List.mem_append.mp hc with hc | hc
          · have := hlo c hc; omega
          · rw [(Memory.mem_cell hc).1]; omega

/-- One store is a run of one store. -/
theorem Memory.write_eq_writeAll (m : Memory) (a : Nat) (b : Byte) : m.write a b = Memory.writeAll [(a, b)] m := rfl

/-- Read after write, at the same address and at every other one. -/
theorem Memory.read_write {m : Memory} (hm : Memory.rising m) (a : Nat) (b : Byte) (a' : Nat) :
    (m.write a b).read a' = if a' = a then b else m.read a' := by
  rw [Memory.write_eq_writeAll, Memory.read_writeAll (by simp [Memory.rising]) hm]
  by_cases h : a' = a
  · simp [h]
  · have : (a' == a) = false := by simpa using h
    simp [List.lookup_cons, this, h]

/-- A store inside the buffer keeps the canonical form. -/
theorem Memory.wf_write {m : Memory} (hm : m.wf) {a : Nat} (ha : a < Config.buffSize) (b : Byte) : (m.write a b).wf := by
  rw [Memory.write_eq_writeAll]
  exact Memory.wf_writeAll (by simp [Memory.rising]) (by simpa using ha) hm

/-- INIT's zero fill is in canonical form. -/
@[simp] theorem Memory.wf_zeroed : Memory.zeroed.wf := Memory.wf_nil

/-- INIT's zero fill reads 0x00 at every address. -/
@[simp] theorem Memory.read_zeroed (a : Nat) : Memory.zeroed.read a = 0x00#8 := rfl

/-- A listed cell of a rising memory is what its address reads as. -/
theorem Memory.read_of_mem {m : Memory} (hm : Memory.rising m) {c : Host.Cell} (hc : c ∈ m) : m.read c.1 = c.2 := by
  induction m with
  | nil => simp at hc
  | cons d m ih =>
    obtain ⟨a', b⟩ := d
    have h := List.pairwise_cons.mp hm
    rw [Memory.read_cons]
    rcases List.mem_cons.mp hc with rfl | hc
    · simp
    · have := h.1 c hc
      rw [if_neg (by simp at this; omega)]
      exact ih h.2 hc

/-- Memories in canonical form that read alike are equal data. -/
theorem Memory.ext_read {m m' : Memory} (hm : m.wf) (hm' : m'.wf) (h : ∀ a, m.read a = m'.read a) : m = m' := by
  have sub : ∀ {x y : Memory}, x.wf → y.wf → (∀ a, x.read a = y.read a) → x ⊆ y := by
    intro x y hx hy hxy c hc
    by_contra hno
    have h1 := Memory.read_of_mem hx.1 hc
    have h2 : y.read c.1 = Memory.unlisted := by
      apply Memory.read_of_absent
      intro d hd e
      apply hno
      have h3 := Memory.read_of_mem hy.1 hd
      rw [e, ← hxy, h1] at h3
      have : d = c := Prod.ext e h3.symm
      exact this ▸ hd
    exact (hx.2 c hc).1 (by rw [← h1, hxy, h2])
  have hnd : ∀ {x : Memory}, x.wf → x.Nodup := fun hx => hx.1.imp fun h e => by
    rw [e] at h; exact lt_irrefl _ h
  have hp : m.Perm m' := (List.perm_ext_iff_of_nodup (hnd hm) (hnd hm')).mpr fun c =>
    ⟨fun hc => sub hm hm' h hc, fun hc => sub hm' hm (fun a => (h a).symm) hc⟩
  refine hp.eq_of_pairwise (le := fun c d => c.1 < d.1) ?_ hm.1 hm'.1
  intro c d _ _ h1 h2
  omega

/-- A run of rising stores is the same as the stores one by one (R114, R116). -/
theorem Memory.writeAll_eq_foldl {ss : List Host.Cell} {m : Memory} (hs : Memory.rising ss)
    (hb : ∀ c ∈ ss, c.1 < Config.buffSize) (hm : m.wf) :
    Memory.writeAll ss m = ss.foldl (fun x c => x.write c.1 c.2) m := by
  have key : ∀ (ss : List Host.Cell) (m : Memory), Memory.rising ss → (∀ c ∈ ss, c.1 < Config.buffSize) → m.wf →
      (ss.foldl (fun x c => Memory.write x c.1 c.2) m).wf ∧
      ∀ a, (ss.foldl (fun x c => Memory.write x c.1 c.2) m).read a = (ss.lookup a).getD (m.read a) := by
    intro ss
    induction ss with
    | nil => exact fun m _ _ hm => ⟨hm, fun a => rfl⟩
    | cons c ss ih =>
      intro m hs hb hm
      obtain ⟨a', b⟩ := c
      have hs' := List.pairwise_cons.mp hs
      have hw := Memory.wf_write hm (hb (a', b) (by simp)) b
      obtain ⟨h1, h2⟩ := ih (m.write a' b) hs'.2 (fun c hc => hb c (by simp [hc])) hw
      refine ⟨h1, fun a => ?_⟩
      rw [List.foldl_cons, h2, Memory.read_write hm.1, List.lookup_cons]
      by_cases h : a = a'
      · subst h
        have hno : ss.lookup a = none := by
          rw [List.lookup_eq_none_iff]
          intro c hc
          have := hs'.1 c hc
          simp at this ⊢
          omega
        simp [hno]
      · have : (a == a') = false := by simpa using h
        simp [this, h]
  obtain ⟨h1, h2⟩ := key ss m hs hb hm
  exact Memory.ext_read (Memory.wf_writeAll hs hb hm) h1 fun a => by rw [Memory.read_writeAll hs hm.1, h2]

/-! ### Runs of reads -/

@[simp] theorem Memory.length_bytesFrom (m : Memory) (a n : Nat) : (Memory.bytesFrom m a n).length = n := by
  induction n generalizing m a with
  | zero => simp [Memory.bytesFrom]
  | succ n ih =>
    match m with
    | [] => simp [Memory.bytesFrom, ih]
    | (a', b) :: rest =>
      simp only [Memory.bytesFrom]
      split <;> simp [ih]

/-- A slice has as many bytes as it was asked for. -/
@[simp] theorem Memory.length_slice (m : Memory) (a n : Nat) : (m.slice a n).length = n := Memory.length_bytesFrom _ _ _

theorem Memory.bytesFrom_eq {m : Memory} (hm : Memory.rising m) {a : Nat} (ha : ∀ c ∈ m, a ≤ c.1) (n : Nat) :
    Memory.bytesFrom m a n = (List.range' a n).map m.read := by
  induction n generalizing m a with
  | zero => simp [Memory.bytesFrom]
  | succ n ih =>
    match m, hm, ha with
    | [], _, _ => simp [Memory.bytesFrom, List.range'_succ, ih (m := []) (by simp [Memory.rising])]
    | (a', b) :: rest, hm, ha =>
      have h := List.pairwise_cons.mp hm
      have ha' := ha (a', b) (by simp)
      simp only [Memory.bytesFrom, List.range'_succ, List.map_cons]
      by_cases he : a' = a
      · subst he
        rw [if_pos rfl, ih h.2 (fun c hc => h.1 c hc), Memory.read_cons, if_pos rfl]
        congr 1
        apply List.map_congr_left
        intro x hx
        have := (List.mem_range'_1.mp hx).1
        rw [Memory.read_cons, if_neg (by omega)]
      · rw [if_neg he, ih hm]
        · congr 1
          symm
          apply Memory.read_of_absent
          intro c hc
          rcases List.mem_cons.mp hc with rfl | hc
          · exact he
          · have := h.1 c hc
            simp at this ha'
            omega
        · intro c hc
          rcases List.mem_cons.mp hc with rfl | hc
          · simp at ha' ⊢; omega
          · have := h.1 c hc
            simp at this ha'
            omega

/-- A slice is the reads of its addresses in ascending order (R57). -/
theorem Memory.slice_eq_map_read {m : Memory} (hm : m.wf) (a n : Nat) : m.slice a n = (List.range' a n).map m.read := by
  unfold Memory.slice
  rw [Memory.dropWhile_lt hm.1, Memory.bytesFrom_eq (Memory.rising_filter hm.1 _)]
  · apply List.map_congr_left
    intro x hx
    have := (List.mem_range'_1.mp hx).1
    exact Memory.read_filter (by simpa using this)
  · intro c hc
    simpa using (List.mem_filter.mp hc).2

/-- The whole buffer in wire order has 12,482 bytes (R95). -/
@[simp] theorem Memory.length_frame (m : Memory) : m.frame.length = 12482 := Memory.length_slice _ _ _

/-- Byte `a` of the buffer in wire order is `WFB[a]` (R57). -/
theorem Memory.frame_eq_map_read {m : Memory} (hm : m.wf) : m.frame = (List.range 12482).map m.read := by
  rw [Memory.frame, Memory.slice_eq_map_read hm, List.range_eq_range']

end Sys2Proof.Machine
end

