-- ==== Sys2Proof/Laws/Encode.lean ====
section
/-! SUPPORT. The bit-reversal table (40_frame_encoder.md R110) and what ENCODE stores, leaves alone and reads back
(R114 to R117). -/

namespace Sys2Proof.Machine

/-- The literal table holds `rev8` of every byte (R110: "provided it proves the two equal"). -/
theorem bitrev_eq_rev8 (b : Byte) : bitrev b = rev8 b := by
  revert b; decide

/-- The store to an address of rising stores is the one that is listed. -/
theorem lookup_of_mem {ss : List Host.Cell} (hs : Memory.rising ss) {a : Nat} {b : Byte} (h : (a, b) ∈ ss) :
    ss.lookup a = some b := by
  induction ss with
  | nil => simp at h
  | cons c ss ih =>
    obtain ⟨a', b'⟩ := c
    have hs' := List.pairwise_cons.mp hs
    rcases List.mem_cons.mp h with e | h
    · cases e; simp
    · have := hs'.1 _ h
      have hne : (a == a') = false := by simp at this ⊢; omega
      simp [List.lookup_cons, hne, ih hs'.2 h]

/-- No store to an address that no store names. -/
theorem lookup_of_absent {ss : List Host.Cell} {a : Nat} (h : ∀ c ∈ ss, c.1 ≠ a) : ss.lookup a = none := by
  rw [List.lookup_eq_none_iff]
  intro c hc
  have := h c hc
  simp
  exact fun e => this e.symm

/-- The pixels after one line are the next line's. -/
theorem pixAt_drop (pix : Pixels) (k j : Nat) :
    pixAt (pix.drop Config.lineBytes) (50 * k + j) = pixAt pix (50 * (k + 1) + j) := by
  simp only [pixAt, Config.lineBytes, List.getD_eq_getElem?_getD, List.getElem?_drop]
  congr 2
  omega

/-- Every store of a line goes to its address byte or to one of its data bytes. -/
theorem mem_lineStores {l : Nat} {row : List Byte} {c : Host.Cell} (h : c ∈ lineStores l row) :
    (c.1 = eaAdr l ∧ c.2 = addressByte l) ∨ ∃ j, ∃ hj : j < row.length, c.1 = eaDst l j ∧ c.2 = dataByte row[j] := by
  simp only [lineStores, List.mem_cons, List.mem_map] at h
  rcases h with rfl | ⟨⟨p, j⟩, hp, rfl⟩
  · exact .inl ⟨rfl, rfl⟩
  · obtain ⟨hj, hp⟩ := List.mem_zipIdx' hp
    exact .inr ⟨j, hj, rfl, by rw [hp]⟩

theorem lineStores_adr_mem (l : Nat) (row : List Byte) : (eaAdr l, addressByte l) ∈ lineStores l row := by
  simp [lineStores]

theorem lineStores_dst_mem (l : Nat) (row : List Byte) {j : Nat} (hj : j < row.length) :
    (eaDst l j, dataByte row[j]) ∈ lineStores l row := by
  simp only [lineStores, List.mem_cons, List.mem_map]
  exact .inr ⟨(row[j], j), by simp [List.mem_zipIdx_iff_getElem?], rfl⟩

theorem rising_lineStores (l : Nat) (row : List Byte) : Memory.rising (lineStores l row) := by
  refine List.pairwise_cons.mpr ⟨?_, ?_⟩
  · intro c hc
    obtain ⟨⟨p, j⟩, -, rfl⟩ := List.mem_map.mp hc
    simp [eaAdr, eaDst]; omega
  · rw [List.pairwise_map]
    refine List.pairwise_iff_getElem.mpr ?_
    intro i j hi hj hij
    simp [eaDst]
    omega

/-- Every store of a run of lines goes to the address byte or a data byte of one of its lines. -/
theorem mem_encodeStoresFrom {n l : Nat} {pix : Pixels} {c : Host.Cell} (h : c ∈ encodeStoresFrom n l pix) :
    ∃ k < n, (c.1 = eaAdr (l + k) ∧ c.2 = addressByte (l + k)) ∨
      ∃ j < 50, c.1 = eaDst (l + k) j ∧ c.2 = dataByte (pixAt pix (50 * k + j)) := by
  induction n generalizing l pix with
  | zero => simp [encodeStoresFrom] at h
  | succ n ih =>
    simp only [encodeStoresFrom, List.mem_append] at h
    rcases h with h | h
    · refine ⟨0, by omega, ?_⟩
      rcases mem_lineStores h with h | ⟨j, hj, h1, h2⟩
      · exact .inl h
      · have hj' : j < 50 := by simp at hj; omega
        refine .inr ⟨j, hj', h1, ?_⟩
        rw [h2]
        simp at hj
        simp [pixAt, hj.2]
    · obtain ⟨k, hk, h⟩ := ih h
      refine ⟨k + 1, by omega, ?_⟩
      have e : l + 1 + k = l + (k + 1) := by omega
      rw [e] at h
      rcases h with h | ⟨j, hj, h1, h2⟩
      · exact .inl h
      · refine .inr ⟨j, hj, h1, ?_⟩
        rw [h2, pixAt_drop]

theorem rising_encodeStoresFrom (n l : Nat) (pix : Pixels) : Memory.rising (encodeStoresFrom n l pix) := by
  induction n generalizing l pix with
  | zero => simp [encodeStoresFrom, Memory.rising]
  | succ n ih =>
    refine List.pairwise_append.mpr ⟨rising_lineStores _ _, ih _ _, ?_⟩
    intro c hc d hd
    obtain ⟨k, -, hd⟩ := mem_encodeStoresFrom hd
    have hc' : c.1 ≤ eaAdr l + 50 := by
      rcases mem_lineStores hc with ⟨h, -⟩ | ⟨j, hj, h, -⟩
      · omega
      · simp at hj; rw [h]; simp [eaAdr, eaDst]; omega
    rcases hd with ⟨h, -⟩ | ⟨j, -, h, -⟩ <;> rw [h] <;> simp [eaAdr, eaDst] at * <;> omega

/-- The stores of ENCODE go to strictly rising addresses. -/
theorem rising_encodeStores (pix : Pixels) : Memory.rising (encodeStores pix) := rising_encodeStoresFrom _ _ _

/-- Every store of ENCODE goes to the address byte or a data byte of one of the 240 lines (R114, R115). -/
theorem mem_encodeStores {pix : Pixels} {c : Host.Cell} (h : c ∈ encodeStores pix) :
    ∃ l < 240, (c.1 = eaAdr l ∧ c.2 = addressByte l) ∨
      ∃ j < 50, c.1 = eaDst l j ∧ c.2 = dataByte (pixAt pix (eaSrc l j)) := by
  obtain ⟨k, hk, h⟩ := mem_encodeStoresFrom h
  exact ⟨k, hk, by simpa [eaSrc] using h⟩

/-- Every store of ENCODE falls inside the buffer, above the mode byte and below the final byte. -/
theorem encodeStores_bounds {pix : Pixels} {c : Host.Cell} (h : c ∈ encodeStores pix) : 0 < c.1 ∧ c.1 < 12480 := by
  obtain ⟨l, hl, ⟨h, -⟩ | ⟨j, hj, h, -⟩⟩ := mem_encodeStores h <;> rw [h] <;> simp [eaAdr, eaDst] <;> omega

theorem encodeStoresFrom_adr_mem {n k : Nat} (l : Nat) (pix : Pixels) (hk : k < n) :
    (eaAdr (l + k), addressByte (l + k)) ∈ encodeStoresFrom n l pix := by
  induction n generalizing l pix k with
  | zero => omega
  | succ n ih =>
    simp only [encodeStoresFrom, List.mem_append]
    cases k with
    | zero => exact .inl (lineStores_adr_mem _ _)
    | succ k =>
      have e : l + (k + 1) = l + 1 + k := by omega
      rw [e]
      exact .inr (ih _ _ (by omega))

theorem encodeStoresFrom_dst_mem {n k j : Nat} (l : Nat) (pix : Pixels) (hk : k < n) (hj : j < 50)
    (hp : 50 * k + j < pix.length) : (eaDst (l + k) j, dataByte (pixAt pix (50 * k + j))) ∈ encodeStoresFrom n l pix := by
  induction n generalizing l pix k with
  | zero => omega
  | succ n ih =>
    simp only [encodeStoresFrom, List.mem_append]
    cases k with
    | zero =>
      have hlen : j < (pix.take Config.lineBytes).length := by simp; omega
      have h := lineStores_dst_mem l (pix.take Config.lineBytes) hlen
      have hj' : j < pix.length := by omega
      simp only [List.getElem_take] at h
      refine .inl ?_
      simpa [pixAt, hj'] using h
    | succ k =>
      have e : l + (k + 1) = l + 1 + k := by omega
      rw [e]
      have h := ih (k := k) (l + 1) (pix.drop Config.lineBytes) (by omega) (by simp; omega)
      rw [pixAt_drop] at h
      exact .inr h

/-- ENCODE keeps the canonical form. -/
theorem wf_encodeInto {m : Memory} (hm : m.wf) (pix : Pixels) : (encodeInto pix m).wf :=
  Memory.wf_writeAll (rising_encodeStores pix) (fun c hc => by have := encodeStores_bounds hc; simp; omega) hm

/-- R90, R114: after ENCODE the address byte of line `l` is `BITREV[l + 1]`. -/
theorem read_encodeInto_adr {m : Memory} (hm : m.wf) (pix : Pixels) {l : Nat} (hl : l < 240) :
    (encodeInto pix m).read (eaAdr l) = addressByte l := by
  have h := encodeStoresFrom_adr_mem 0 pix hl
  rw [Nat.zero_add] at h
  rw [encodeInto, Memory.read_writeAll (rising_encodeStores pix) hm.1, lookup_of_mem (rising_encodeStores pix) h]
  rfl

/-- R91, R114: after ENCODE data byte `j` of line `l` is the complement of `PIX[50 * l + j]`. -/
theorem read_encodeInto_dst {m : Memory} (hm : m.wf) {pix : Pixels} (hp : pix.length = 12000) {l j : Nat} (hl : l < 240)
    (hj : j < 50) : (encodeInto pix m).read (eaDst l j) = dataByte (pixAt pix (eaSrc l j)) := by
  have h := encodeStoresFrom_dst_mem 0 pix hl hj (by omega)
  rw [Nat.zero_add] at h
  rw [encodeInto, Memory.read_writeAll (rising_encodeStores pix) hm.1, lookup_of_mem (rising_encodeStores pix) h]
  rfl

/-- R115: ENCODE leaves every address alone that is no address byte and no data byte. -/
theorem read_encodeInto_other {m : Memory} (hm : m.wf) (pix : Pixels) {a : Nat}
    (h : ∀ l < 240, a ≠ eaAdr l ∧ ∀ j < 50, a ≠ eaDst l j) : (encodeInto pix m).read a = m.read a := by
  rw [encodeInto, Memory.read_writeAll (rising_encodeStores pix) hm.1, lookup_of_absent, Option.getD_none]
  intro c hc e
  obtain ⟨l, hl, ⟨h1, -⟩ | ⟨j, hj, h1, -⟩⟩ := mem_encodeStores hc
  · exact (h l hl).1 (e ▸ h1)
  · exact (h l hl).2 j hj (e ▸ h1)

/-- R115: ENCODE does not touch the mode byte. -/
theorem read_encodeInto_mode {m : Memory} (hm : m.wf) (pix : Pixels) : (encodeInto pix m).read eaMode = m.read eaMode :=
  read_encodeInto_other hm pix fun l _ => ⟨by simp [eaMode, eaAdr]; omega, fun j _ => by simp [eaMode, eaDst]; omega⟩

/-- R115: ENCODE does not touch a gap byte. -/
theorem read_encodeInto_gap {m : Memory} (hm : m.wf) (pix : Pixels) (l : Nat) :
    (encodeInto pix m).read (eaGap l) = m.read (eaGap l) :=
  read_encodeInto_other hm pix fun k _ =>
    ⟨by simp [eaGap, eaAdr]; omega, fun j hj => by simp [eaGap, eaDst]; omega⟩

/-- R115: ENCODE does not touch the final byte. -/
theorem read_encodeInto_final {m : Memory} (hm : m.wf) (pix : Pixels) :
    (encodeInto pix m).read eaFinal = m.read eaFinal :=
  read_encodeInto_other hm pix fun l hl =>
    ⟨by simp [eaFinal, eaAdr]; omega, fun j hj => by simp [eaFinal, eaDst]; omega⟩

end Sys2Proof.Machine
end

