-- ==== Sys2Proof/Laws/State.lean ====
section
/-! SUPPORT. One lemma per field of State and per named update: what the update makes of the field. Every one is true by
unfolding, so that no later proof unfolds a record update. -/

namespace Sys2Proof.Machine

/-! ### `State.vcomToggle` -/

@[simp] theorem State.vcomToggle_life (s : State) : (s.vcomToggle).life = s.life := rfl
@[simp] theorem State.vcomToggle_v (s : State) : (s.vcomToggle).v = toggled s.v := rfl
@[simp] theorem State.vcomToggle_wfb (s : State) : (s.vcomToggle).wfb = s.wfb := rfl
@[simp] theorem State.vcomToggle_slot (s : State) : (s.vcomToggle).slot = s.slot := rfl
@[simp] theorem State.vcomToggle_txi (s : State) : (s.vcomToggle).txi = s.txi := rfl
@[simp] theorem State.vcomToggle_cs (s : State) : (s.vcomToggle).cs = s.cs := rfl
@[simp] theorem State.vcomToggle_disp (s : State) : (s.vcomToggle).disp = s.disp := rfl
@[simp] theorem State.vcomToggle_trace (s : State) : (s.vcomToggle).trace = s.trace := rfl
@[simp] theorem State.vcomToggle_fault (s : State) : (s.vcomToggle).fault = s.fault := rfl
@[simp] theorem State.vcomToggle_responses (s : State) : (s.vcomToggle).responses = s.responses := rfl
@[simp] theorem State.vcomToggle_seq (s : State) : (s.vcomToggle).seq = s.seq := rfl
@[simp] theorem State.vcomToggle_agenda (s : State) : (s.vcomToggle).agenda = s.agenda := rfl
@[simp] theorem State.vcomToggle_answers (s : State) : (s.vcomToggle).answers = s.answers := rfl
@[simp] theorem State.vcomToggle_draws (s : State) : (s.vcomToggle).draws = s.draws := rfl

/-! ### `State.storeModeByte` -/

@[simp] theorem State.storeModeByte_life (s : State) : (s.storeModeByte).life = s.life := rfl
@[simp] theorem State.storeModeByte_v (s : State) : (s.storeModeByte).v = s.v := rfl
@[simp] theorem State.storeModeByte_wfb (s : State) : (s.storeModeByte).wfb = s.wfb.write eaMode s.modeByte := rfl
@[simp] theorem State.storeModeByte_slot (s : State) : (s.storeModeByte).slot = s.slot := rfl
@[simp] theorem State.storeModeByte_txi (s : State) : (s.storeModeByte).txi = s.txi := rfl
@[simp] theorem State.storeModeByte_cs (s : State) : (s.storeModeByte).cs = s.cs := rfl
@[simp] theorem State.storeModeByte_disp (s : State) : (s.storeModeByte).disp = s.disp := rfl
@[simp] theorem State.storeModeByte_trace (s : State) : (s.storeModeByte).trace = s.trace := rfl
@[simp] theorem State.storeModeByte_fault (s : State) : (s.storeModeByte).fault = s.fault := rfl
@[simp] theorem State.storeModeByte_responses (s : State) : (s.storeModeByte).responses = s.responses := rfl
@[simp] theorem State.storeModeByte_seq (s : State) : (s.storeModeByte).seq = s.seq := rfl
@[simp] theorem State.storeModeByte_agenda (s : State) : (s.storeModeByte).agenda = s.agenda := rfl
@[simp] theorem State.storeModeByte_answers (s : State) : (s.storeModeByte).answers = s.answers := rfl
@[simp] theorem State.storeModeByte_draws (s : State) : (s.storeModeByte).draws = s.draws := rfl

/-! ### `State.encodeFrame` -/

@[simp] theorem State.encodeFrame_life (pix : Pixels) (s : State) : (s.encodeFrame pix).life = s.life := rfl
@[simp] theorem State.encodeFrame_v (pix : Pixels) (s : State) : (s.encodeFrame pix).v = s.v := rfl
@[simp] theorem State.encodeFrame_wfb (pix : Pixels) (s : State) : (s.encodeFrame pix).wfb = encodeInto pix s.wfb := rfl
@[simp] theorem State.encodeFrame_slot (pix : Pixels) (s : State) : (s.encodeFrame pix).slot = s.slot := rfl
@[simp] theorem State.encodeFrame_txi (pix : Pixels) (s : State) : (s.encodeFrame pix).txi = s.txi := rfl
@[simp] theorem State.encodeFrame_cs (pix : Pixels) (s : State) : (s.encodeFrame pix).cs = s.cs := rfl
@[simp] theorem State.encodeFrame_disp (pix : Pixels) (s : State) : (s.encodeFrame pix).disp = s.disp := rfl
@[simp] theorem State.encodeFrame_trace (pix : Pixels) (s : State) : (s.encodeFrame pix).trace = s.trace := rfl
@[simp] theorem State.encodeFrame_fault (pix : Pixels) (s : State) : (s.encodeFrame pix).fault = s.fault := rfl
@[simp] theorem State.encodeFrame_responses (pix : Pixels) (s : State) : (s.encodeFrame pix).responses = s.responses := rfl
@[simp] theorem State.encodeFrame_seq (pix : Pixels) (s : State) : (s.encodeFrame pix).seq = s.seq := rfl
@[simp] theorem State.encodeFrame_agenda (pix : Pixels) (s : State) : (s.encodeFrame pix).agenda = s.agenda := rfl
@[simp] theorem State.encodeFrame_answers (pix : Pixels) (s : State) : (s.encodeFrame pix).answers = s.answers := rfl
@[simp] theorem State.encodeFrame_draws (pix : Pixels) (s : State) : (s.encodeFrame pix).draws = s.draws := rfl

/-! ### `State.emit` -/

@[simp] theorem State.emit_life (es : List Event) (s : State) : (s.emit es).life = s.life := rfl
@[simp] theorem State.emit_v (es : List Event) (s : State) : (s.emit es).v = s.v := rfl
@[simp] theorem State.emit_wfb (es : List Event) (s : State) : (s.emit es).wfb = s.wfb := rfl
@[simp] theorem State.emit_slot (es : List Event) (s : State) : (s.emit es).slot = s.slot := rfl
@[simp] theorem State.emit_txi (es : List Event) (s : State) : (s.emit es).txi = s.txi := rfl
@[simp] theorem State.emit_cs (es : List Event) (s : State) : (s.emit es).cs = s.cs := rfl
@[simp] theorem State.emit_disp (es : List Event) (s : State) : (s.emit es).disp = s.disp := rfl
@[simp] theorem State.emit_trace (es : List Event) (s : State) : (s.emit es).trace = s.trace ++ es := rfl
@[simp] theorem State.emit_fault (es : List Event) (s : State) : (s.emit es).fault = s.fault := rfl
@[simp] theorem State.emit_responses (es : List Event) (s : State) : (s.emit es).responses = s.responses := rfl
@[simp] theorem State.emit_seq (es : List Event) (s : State) : (s.emit es).seq = s.seq := rfl
@[simp] theorem State.emit_agenda (es : List Event) (s : State) : (s.emit es).agenda = s.agenda := rfl
@[simp] theorem State.emit_answers (es : List Event) (s : State) : (s.emit es).answers = s.answers := rfl
@[simp] theorem State.emit_draws (es : List Event) (s : State) : (s.emit es).draws = s.draws := rfl

/-! ### `State.respond` -/

@[simp] theorem State.respond_life (st : Status) (s : State) : (s.respond st).life = s.life := rfl
@[simp] theorem State.respond_v (st : Status) (s : State) : (s.respond st).v = s.v := rfl
@[simp] theorem State.respond_wfb (st : Status) (s : State) : (s.respond st).wfb = s.wfb := rfl
@[simp] theorem State.respond_slot (st : Status) (s : State) : (s.respond st).slot = s.slot := rfl
@[simp] theorem State.respond_txi (st : Status) (s : State) : (s.respond st).txi = s.txi := rfl
@[simp] theorem State.respond_cs (st : Status) (s : State) : (s.respond st).cs = s.cs := rfl
@[simp] theorem State.respond_disp (st : Status) (s : State) : (s.respond st).disp = s.disp := rfl
@[simp] theorem State.respond_trace (st : Status) (s : State) : (s.respond st).trace = s.trace := rfl
@[simp] theorem State.respond_fault (st : Status) (s : State) : (s.respond st).fault = s.fault := rfl
@[simp] theorem State.respond_responses (st : Status) (s : State) : (s.respond st).responses = s.responses ++ [st] := rfl
@[simp] theorem State.respond_seq (st : Status) (s : State) : (s.respond st).seq = s.seq := rfl
@[simp] theorem State.respond_agenda (st : Status) (s : State) : (s.respond st).agenda = s.agenda := rfl
@[simp] theorem State.respond_answers (st : Status) (s : State) : (s.respond st).answers = s.answers := rfl
@[simp] theorem State.respond_draws (st : Status) (s : State) : (s.respond st).draws = s.draws := rfl

/-! ### `State.raise` -/

@[simp] theorem State.raise_life (f : FaultName) (s : State) : (s.raise f).life = s.life := rfl
@[simp] theorem State.raise_v (f : FaultName) (s : State) : (s.raise f).v = s.v := rfl
@[simp] theorem State.raise_wfb (f : FaultName) (s : State) : (s.raise f).wfb = s.wfb := rfl
@[simp] theorem State.raise_slot (f : FaultName) (s : State) : (s.raise f).slot = s.slot := rfl
@[simp] theorem State.raise_txi (f : FaultName) (s : State) : (s.raise f).txi = s.txi := rfl
@[simp] theorem State.raise_cs (f : FaultName) (s : State) : (s.raise f).cs = s.cs := rfl
@[simp] theorem State.raise_disp (f : FaultName) (s : State) : (s.raise f).disp = s.disp := rfl
@[simp] theorem State.raise_trace (f : FaultName) (s : State) : (s.raise f).trace = s.trace := rfl
@[simp] theorem State.raise_fault (f : FaultName) (s : State) : (s.raise f).fault = (match s.fault with | none => some f | some g => some g) := rfl
@[simp] theorem State.raise_responses (f : FaultName) (s : State) : (s.raise f).responses = s.responses := rfl
@[simp] theorem State.raise_seq (f : FaultName) (s : State) : (s.raise f).seq = s.seq := rfl
@[simp] theorem State.raise_agenda (f : FaultName) (s : State) : (s.raise f).agenda = s.agenda := rfl
@[simp] theorem State.raise_answers (f : FaultName) (s : State) : (s.raise f).answers = s.answers := rfl
@[simp] theorem State.raise_draws (f : FaultName) (s : State) : (s.raise f).draws = s.draws := rfl

/-! ### `State.consumeAnswers` -/

@[simp] theorem State.consumeAnswers_life (s : State) : (s.consumeAnswers).life = s.life := rfl
@[simp] theorem State.consumeAnswers_v (s : State) : (s.consumeAnswers).v = s.v := rfl
@[simp] theorem State.consumeAnswers_wfb (s : State) : (s.consumeAnswers).wfb = s.wfb := rfl
@[simp] theorem State.consumeAnswers_slot (s : State) : (s.consumeAnswers).slot = s.slot := rfl
@[simp] theorem State.consumeAnswers_txi (s : State) : (s.consumeAnswers).txi = s.txi := rfl
@[simp] theorem State.consumeAnswers_cs (s : State) : (s.consumeAnswers).cs = s.cs := rfl
@[simp] theorem State.consumeAnswers_disp (s : State) : (s.consumeAnswers).disp = s.disp := rfl
@[simp] theorem State.consumeAnswers_trace (s : State) : (s.consumeAnswers).trace = s.trace := rfl
@[simp] theorem State.consumeAnswers_fault (s : State) : (s.consumeAnswers).fault = s.fault := rfl
@[simp] theorem State.consumeAnswers_responses (s : State) : (s.consumeAnswers).responses = s.responses := rfl
@[simp] theorem State.consumeAnswers_seq (s : State) : (s.consumeAnswers).seq = s.seq := rfl
@[simp] theorem State.consumeAnswers_agenda (s : State) : (s.consumeAnswers).agenda = s.agenda := rfl
@[simp] theorem State.consumeAnswers_answers (s : State) : (s.consumeAnswers).answers = s.answers.tail := rfl
@[simp] theorem State.consumeAnswers_draws (s : State) : (s.consumeAnswers).draws = s.draws + 1 := rfl

/-! ### `State.csAssertStep` -/

@[simp] theorem State.csAssertStep_life (s : State) : (s.csAssertStep).life = s.life := rfl
@[simp] theorem State.csAssertStep_v (s : State) : (s.csAssertStep).v = s.v := rfl
@[simp] theorem State.csAssertStep_wfb (s : State) : (s.csAssertStep).wfb = s.wfb := rfl
@[simp] theorem State.csAssertStep_slot (s : State) : (s.csAssertStep).slot = s.slot := rfl
@[simp] theorem State.csAssertStep_txi (s : State) : (s.csAssertStep).txi = s.txi := rfl
@[simp] theorem State.csAssertStep_cs (s : State) : (s.csAssertStep).cs = .asserted := rfl
@[simp] theorem State.csAssertStep_disp (s : State) : (s.csAssertStep).disp = s.disp := rfl
@[simp] theorem State.csAssertStep_trace (s : State) : (s.csAssertStep).trace = s.trace ++ [.csAssert, .wait 10] := rfl
@[simp] theorem State.csAssertStep_fault (s : State) : (s.csAssertStep).fault = s.fault := rfl
@[simp] theorem State.csAssertStep_responses (s : State) : (s.csAssertStep).responses = s.responses := rfl
@[simp] theorem State.csAssertStep_seq (s : State) : (s.csAssertStep).seq = s.seq := rfl
@[simp] theorem State.csAssertStep_agenda (s : State) : (s.csAssertStep).agenda = s.agenda := rfl
@[simp] theorem State.csAssertStep_answers (s : State) : (s.csAssertStep).answers = s.answers := rfl
@[simp] theorem State.csAssertStep_draws (s : State) : (s.csAssertStep).draws = s.draws := rfl

/-! ### `State.csDeassertStep` -/

@[simp] theorem State.csDeassertStep_life (s : State) : (s.csDeassertStep).life = s.life := rfl
@[simp] theorem State.csDeassertStep_v (s : State) : (s.csDeassertStep).v = s.v := rfl
@[simp] theorem State.csDeassertStep_wfb (s : State) : (s.csDeassertStep).wfb = s.wfb := rfl
@[simp] theorem State.csDeassertStep_slot (s : State) : (s.csDeassertStep).slot = s.slot := rfl
@[simp] theorem State.csDeassertStep_txi (s : State) : (s.csDeassertStep).txi = s.txi := rfl
@[simp] theorem State.csDeassertStep_cs (s : State) : (s.csDeassertStep).cs = .deasserted := rfl
@[simp] theorem State.csDeassertStep_disp (s : State) : (s.csDeassertStep).disp = s.disp := rfl
@[simp] theorem State.csDeassertStep_trace (s : State) : (s.csDeassertStep).trace = s.trace ++ [.wait 5, .csDeassert] := rfl
@[simp] theorem State.csDeassertStep_fault (s : State) : (s.csDeassertStep).fault = s.fault := rfl
@[simp] theorem State.csDeassertStep_responses (s : State) : (s.csDeassertStep).responses = s.responses := rfl
@[simp] theorem State.csDeassertStep_seq (s : State) : (s.csDeassertStep).seq = s.seq := rfl
@[simp] theorem State.csDeassertStep_agenda (s : State) : (s.csDeassertStep).agenda = s.agenda := rfl
@[simp] theorem State.csDeassertStep_answers (s : State) : (s.csDeassertStep).answers = s.answers := rfl
@[simp] theorem State.csDeassertStep_draws (s : State) : (s.csDeassertStep).draws = s.draws := rfl

/-! ### `State.txBlocking` -/

@[simp] theorem State.txBlocking_life (buf : List Byte) (n : Nat) (s : State) : (s.txBlocking buf n).life = s.life := rfl
@[simp] theorem State.txBlocking_v (buf : List Byte) (n : Nat) (s : State) : (s.txBlocking buf n).v = s.v := rfl
@[simp] theorem State.txBlocking_wfb (buf : List Byte) (n : Nat) (s : State) : (s.txBlocking buf n).wfb = s.wfb := rfl
@[simp] theorem State.txBlocking_slot (buf : List Byte) (n : Nat) (s : State) : (s.txBlocking buf n).slot = s.slot := rfl
@[simp] theorem State.txBlocking_txi (buf : List Byte) (n : Nat) (s : State) : (s.txBlocking buf n).txi = s.txi := rfl
@[simp] theorem State.txBlocking_cs (buf : List Byte) (n : Nat) (s : State) : (s.txBlocking buf n).cs = s.cs := rfl
@[simp] theorem State.txBlocking_disp (buf : List Byte) (n : Nat) (s : State) : (s.txBlocking buf n).disp = s.disp := rfl
@[simp] theorem State.txBlocking_trace (buf : List Byte) (n : Nat) (s : State) : (s.txBlocking buf n).trace = s.trace ++ (buf.take (txSent n s.nextAnswers.tx)).map .tx := rfl
@[simp] theorem State.txBlocking_fault (buf : List Byte) (n : Nat) (s : State) : (s.txBlocking buf n).fault = s.fault := rfl
@[simp] theorem State.txBlocking_responses (buf : List Byte) (n : Nat) (s : State) : (s.txBlocking buf n).responses = s.responses := rfl
@[simp] theorem State.txBlocking_seq (buf : List Byte) (n : Nat) (s : State) : (s.txBlocking buf n).seq = s.seq := rfl
@[simp] theorem State.txBlocking_agenda (buf : List Byte) (n : Nat) (s : State) : (s.txBlocking buf n).agenda = s.agenda := rfl
@[simp] theorem State.txBlocking_answers (buf : List Byte) (n : Nat) (s : State) : (s.txBlocking buf n).answers = s.answers.tail := rfl
@[simp] theorem State.txBlocking_draws (buf : List Byte) (n : Nat) (s : State) : (s.txBlocking buf n).draws = s.draws + 1 := rfl

/-! ### `State.finishWrite` -/

@[simp] theorem State.finishWrite_life (r : Int) (s : State) : (s.finishWrite r).life = s.life := rfl
@[simp] theorem State.finishWrite_v (r : Int) (s : State) : (s.finishWrite r).v = s.v := rfl
@[simp] theorem State.finishWrite_wfb (r : Int) (s : State) : (s.finishWrite r).wfb = s.wfb := rfl
@[simp] theorem State.finishWrite_slot (r : Int) (s : State) : (s.finishWrite r).slot = s.slot := rfl
@[simp] theorem State.finishWrite_txi (r : Int) (s : State) : (s.finishWrite r).txi = s.txi := rfl
@[simp] theorem State.finishWrite_cs (r : Int) (s : State) : (s.finishWrite r).cs = .deasserted := rfl
@[simp] theorem State.finishWrite_disp (r : Int) (s : State) : (s.finishWrite r).disp = s.disp := rfl
@[simp] theorem State.finishWrite_trace (r : Int) (s : State) : (s.finishWrite r).trace = s.trace ++ [.wait 5, .csDeassert] := rfl
@[simp] theorem State.finishWrite_fault (r : Int) (s : State) : (s.finishWrite r).fault = s.fault := rfl
@[simp] theorem State.finishWrite_responses (r : Int) (s : State) : (s.finishWrite r).responses = s.responses ++ [writeStatus r] := rfl
@[simp] theorem State.finishWrite_seq (r : Int) (s : State) : (s.finishWrite r).seq = .idle := rfl
@[simp] theorem State.finishWrite_agenda (r : Int) (s : State) : (s.finishWrite r).agenda = s.agenda := rfl
@[simp] theorem State.finishWrite_answers (r : Int) (s : State) : (s.finishWrite r).answers = s.answers := rfl
@[simp] theorem State.finishWrite_draws (r : Int) (s : State) : (s.finishWrite r).draws = s.draws := rfl

/-! ### `State.finishClear` -/

@[simp] theorem State.finishClear_life (s : State) : (s.finishClear).life = s.life := rfl
@[simp] theorem State.finishClear_v (s : State) : (s.finishClear).v = s.v := rfl
@[simp] theorem State.finishClear_wfb (s : State) : (s.finishClear).wfb = s.wfb := rfl
@[simp] theorem State.finishClear_slot (s : State) : (s.finishClear).slot = s.slot := rfl
@[simp] theorem State.finishClear_txi (s : State) : (s.finishClear).txi = s.txi := rfl
@[simp] theorem State.finishClear_cs (s : State) : (s.finishClear).cs = .deasserted := rfl
@[simp] theorem State.finishClear_disp (s : State) : (s.finishClear).disp = s.disp := rfl
@[simp] theorem State.finishClear_trace (s : State) : (s.finishClear).trace = s.trace ++ [.wait 5, .csDeassert] := rfl
@[simp] theorem State.finishClear_fault (s : State) : (s.finishClear).fault = s.fault := rfl
@[simp] theorem State.finishClear_responses (s : State) : (s.finishClear).responses = s.responses ++ [.ok] := rfl
@[simp] theorem State.finishClear_seq (s : State) : (s.finishClear).seq = .idle := rfl
@[simp] theorem State.finishClear_agenda (s : State) : (s.finishClear).agenda = s.agenda := rfl
@[simp] theorem State.finishClear_answers (s : State) : (s.finishClear).answers = s.answers := rfl
@[simp] theorem State.finishClear_draws (s : State) : (s.finishClear).draws = s.draws := rfl

/-! ### `State.engineByteStep` -/

@[simp] theorem State.engineByteStep_life (s : State) : (s.engineByteStep).life = s.life := rfl
@[simp] theorem State.engineByteStep_v (s : State) : (s.engineByteStep).v = s.v := rfl
@[simp] theorem State.engineByteStep_wfb (s : State) : (s.engineByteStep).wfb = s.wfb := rfl
@[simp] theorem State.engineByteStep_slot (s : State) : (s.engineByteStep).slot = s.slot := rfl
@[simp] theorem State.engineByteStep_txi (s : State) : (s.engineByteStep).txi = s.txi + 1 := rfl
@[simp] theorem State.engineByteStep_cs (s : State) : (s.engineByteStep).cs = s.cs := rfl
@[simp] theorem State.engineByteStep_disp (s : State) : (s.engineByteStep).disp = s.disp := rfl
@[simp] theorem State.engineByteStep_trace (s : State) : (s.engineByteStep).trace = s.trace ++ [.tx (s.wfb.read s.txi)] := rfl
@[simp] theorem State.engineByteStep_fault (s : State) : (s.engineByteStep).fault = s.fault := rfl
@[simp] theorem State.engineByteStep_responses (s : State) : (s.engineByteStep).responses = s.responses := rfl
@[simp] theorem State.engineByteStep_seq (s : State) : (s.engineByteStep).seq = s.seq := rfl
@[simp] theorem State.engineByteStep_agenda (s : State) : (s.engineByteStep).agenda = s.agenda := rfl
@[simp] theorem State.engineByteStep_answers (s : State) : (s.engineByteStep).answers = s.answers := rfl
@[simp] theorem State.engineByteStep_draws (s : State) : (s.engineByteStep).draws = s.draws := rfl

/-! ### `State.engineDoneStep` -/

@[simp] theorem State.engineDoneStep_life (s : State) : (s.engineDoneStep).life = s.life := rfl
@[simp] theorem State.engineDoneStep_v (s : State) : (s.engineDoneStep).v = s.v := rfl
@[simp] theorem State.engineDoneStep_wfb (s : State) : (s.engineDoneStep).wfb = s.wfb := rfl
@[simp] theorem State.engineDoneStep_slot (s : State) : (s.engineDoneStep).slot = .done := rfl
@[simp] theorem State.engineDoneStep_txi (s : State) : (s.engineDoneStep).txi = s.txi := rfl
@[simp] theorem State.engineDoneStep_cs (s : State) : (s.engineDoneStep).cs = s.cs := rfl
@[simp] theorem State.engineDoneStep_disp (s : State) : (s.engineDoneStep).disp = s.disp := rfl
@[simp] theorem State.engineDoneStep_trace (s : State) : (s.engineDoneStep).trace = s.trace ++ [.sig Config.completionTag] := rfl
@[simp] theorem State.engineDoneStep_fault (s : State) : (s.engineDoneStep).fault = s.fault := rfl
@[simp] theorem State.engineDoneStep_responses (s : State) : (s.engineDoneStep).responses = s.responses := rfl
@[simp] theorem State.engineDoneStep_seq (s : State) : (s.engineDoneStep).seq = s.seq := rfl
@[simp] theorem State.engineDoneStep_agenda (s : State) : (s.engineDoneStep).agenda = s.agenda := rfl
@[simp] theorem State.engineDoneStep_answers (s : State) : (s.engineDoneStep).answers = s.answers := rfl
@[simp] theorem State.engineDoneStep_draws (s : State) : (s.engineDoneStep).draws = s.draws := rfl

/-! ### `State.enqueueFirst` -/

@[simp] theorem State.enqueueFirst_life (p : Packet) (s : State) : (s.enqueueFirst p).life = s.life := rfl
@[simp] theorem State.enqueueFirst_v (p : Packet) (s : State) : (s.enqueueFirst p).v = s.v := rfl
@[simp] theorem State.enqueueFirst_wfb (p : Packet) (s : State) : (s.enqueueFirst p).wfb = s.wfb := rfl
@[simp] theorem State.enqueueFirst_slot (p : Packet) (s : State) : (s.enqueueFirst p).slot = s.slot := rfl
@[simp] theorem State.enqueueFirst_txi (p : Packet) (s : State) : (s.enqueueFirst p).txi = s.txi := rfl
@[simp] theorem State.enqueueFirst_cs (p : Packet) (s : State) : (s.enqueueFirst p).cs = s.cs := rfl
@[simp] theorem State.enqueueFirst_disp (p : Packet) (s : State) : (s.enqueueFirst p).disp = s.disp := rfl
@[simp] theorem State.enqueueFirst_trace (p : Packet) (s : State) : (s.enqueueFirst p).trace = s.trace := rfl
@[simp] theorem State.enqueueFirst_fault (p : Packet) (s : State) : (s.enqueueFirst p).fault = s.fault := rfl
@[simp] theorem State.enqueueFirst_responses (p : Packet) (s : State) : (s.enqueueFirst p).responses = s.responses := rfl
@[simp] theorem State.enqueueFirst_seq (p : Packet) (s : State) : (s.enqueueFirst p).seq = s.seq := rfl
@[simp] theorem State.enqueueFirst_agenda (p : Packet) (s : State) : (s.enqueueFirst p).agenda = .cmd p :: s.agenda := rfl
@[simp] theorem State.enqueueFirst_answers (p : Packet) (s : State) : (s.enqueueFirst p).answers = s.answers := rfl
@[simp] theorem State.enqueueFirst_draws (p : Packet) (s : State) : (s.enqueueFirst p).draws = s.draws := rfl

/-! ### The drawn answers -/

/-- Named answers are used before free values. -/
theorem State.nextAnswers_cons {s : State} {a : EnvAnswers} {rest : List EnvAnswers} (h : s.answers = a :: rest) :
    s.nextAnswers = a := by simp [State.nextAnswers, drawAnswers, h]

/-- Answers are the same in states that agree on the two fields they are drawn from. -/
theorem State.nextAnswers_congr {s t : State} (h1 : s.answers = t.answers) (h2 : s.draws = t.draws) :
    s.nextAnswers = t.nextAnswers := by simp [State.nextAnswers, h1, h2]

@[simp] theorem State.modeByte_vcomToggle (s : State) :
    s.vcomToggle.modeByte = commandByte 0x80#8 (toggled s.v) := rfl

/-- A fault on a state that records none is recorded (R205). -/
@[simp] theorem State.raise_of_none {s : State} (h : s.fault = none) (f : FaultName) :
    s.raise f = { s with fault := some f } := by simp [State.raise, h]

end Sys2Proof.Machine
end

