-- ==== Sys2Proof/Laws/Ops.lean ====
section
/-! SUPPORT. One lemma per shared operation that says everything it can do: the gates of a step, the legality check, the
bounds of a draw, the transmit steps and the frame preparation. -/

namespace Sys2Proof.Machine

/-- What a gated step can answer: a stop because of an earlier fault, a stop because of a hang, or what it guards. -/
theorem whenRunning_cases (s : State) (k : Host.Outcome State Fault Refusal) :
    (∃ f, s.fault = some f ∧ whenRunning s k = .fault (.afterFault f)) ∨
    (s.fault = none ∧ s.seq = .stalled ∧ whenRunning s k = .fault .transferStalled) ∨
    (s.fault = none ∧ s.seq ≠ .stalled ∧ whenRunning s k = k) := by
  unfold whenRunning
  cases hf : s.fault with
  | some f => exact .inl ⟨f, rfl, rfl⟩
  | none => cases hs : s.seq <;> simp

/-- A gated step runs what it guards where no fault is recorded and no transfer hangs. -/
theorem whenRunning_of_running {s : State} (hf : s.fault = none) (hs : s.seq ≠ .stalled)
    (k : Host.Outcome State Fault Refusal) : whenRunning s k = k := by
  rcases whenRunning_cases s k with ⟨f, h, -⟩ | ⟨-, h, -⟩ | ⟨-, -, h⟩
  · simp [hf] at h
  · exact absurd h hs
  · exact h

/-- A gated step that answers a next state came through its gate. -/
theorem whenRunning_next {s t : State} {k : Host.Outcome State Fault Refusal} (h : whenRunning s k = .next t) :
    s.fault = none ∧ s.seq ≠ .stalled ∧ k = .next t := by
  rcases whenRunning_cases s k with ⟨f, -, e⟩ | ⟨-, -, e⟩ | ⟨hf, hs, e⟩ <;> rw [e] at h
  · cases h
  · cases h
  · exact ⟨hf, hs, h⟩

/-- The host port takes a command where no fault is recorded and the sequencer is between commands. -/
theorem atHostPort_of_ready {s : State} (hf : s.fault = none) (hs : s.seq = .idle)
    (k : Host.Outcome State Fault Refusal) : atHostPort s k = k := by
  rw [atHostPort, whenRunning_of_running hf (by simp [hs])]
  simp [hs]

/-- The host port answers a next state only through its gate. -/
theorem atHostPort_next {s t : State} {k : Host.Outcome State Fault Refusal} (h : atHostPort s k = .next t) :
    s.fault = none ∧ s.seq = .idle ∧ k = .next t := by
  obtain ⟨hf, hs, h⟩ := whenRunning_next h
  cases hq : s.seq <;> simp_all

/-- Everything a host command can do when it answers a next state: a recorded fault of the legality table and no other change,
or its step list. -/
theorem hostCommand_next {op : HostOp} {body : State → State} {s t : State} (h : hostCommand op body s = .next t) :
    s.fault = none ∧ s.seq = .idle ∧
      ((∃ f, legality op s.life s.slot = some f ∧ t = { s with fault := some f }) ∨
       (legality op s.life s.slot = none ∧ t = body s)) := by
  obtain ⟨hf, hs, h⟩ := atHostPort_next h
  refine ⟨hf, hs, ?_⟩
  cases hl : legality op s.life s.slot with
  | some f => simp only [hl, State.raise_of_none hf] at h; cases h; exact .inl ⟨f, rfl, rfl⟩
  | none => simp only [hl] at h; cases h; exact .inr ⟨rfl, rfl⟩

/-- A legal host command runs its step list. -/
theorem hostCommand_of_legal {op : HostOp} {body : State → State} {s : State} (hf : s.fault = none) (hs : s.seq = .idle)
    (hl : legality op s.life s.slot = none) : hostCommand op body s = .next (body s) := by
  simp [hostCommand, atHostPort_of_ready hf hs, hl]

/-- An illegal host command records its fault and does nothing else. -/
theorem hostCommand_of_illegal {op : HostOp} {body : State → State} {s : State} (hf : s.fault = none) (hs : s.seq = .idle)
    {f : FaultName} (hl : legality op s.life s.slot = some f) :
    hostCommand op body s = .next { s with fault := some f } := by
  simp [hostCommand, atHostPort_of_ready hf hs, hl, State.raise_of_none hf]

/-- The operand check passes pixels of the right length to the step list. -/
theorem withPixels_of_length {pix : Pixels} (h : pix.length = 12000) (body : State → State) (s : State) :
    withPixels pix body s = body s := by simp [withPixels, h]

/-- The operand check records its fault for pixels of every other length. -/
theorem withPixels_of_bad_length {pix : Pixels} (h : pix.length ≠ 12000) (body : State → State) {s : State}
    (hf : s.fault = none) : withPixels pix body s = { s with fault := some .badPixelLength } := by
  simp [withPixels, h, State.raise_of_none hf]

/-- R145 (a): never more bytes than requested. -/
theorem txSent_le (n : Nat) (a : TxAnswer) : txSent n a ≤ n := by
  unfold txSent
  cases a with
  | returns k r => simp only; split <;> omega
  | stalls k => simp only; omega

/-- R145 (b): a full report means that all the bytes went out. -/
@[simp] theorem txSent_full (n k : Nat) : txSent n (.returns k (n : Int)) = n := by simp [txSent]

/-- R145: an answer that meets the contract is taken as it is. -/
theorem txSent_of_legal {n k : Nat} {r : Int} (hk : k ≤ n) (h : r = n → k = n) : txSent n (.returns k r) = k := by
  by_cases e : r = n
  · simp [txSent, e, h e]
  · simp [txSent, e]; omega

/-- R186: the drawn stopping point is not behind the engine. -/
theorem le_stopPoint (txi m : Nat) : txi ≤ stopPoint txi m := by simp [stopPoint]

/-- R186: the drawn stopping point is not past the end of the buffer. -/
theorem stopPoint_le {txi : Nat} (h : txi ≤ 12482) (m : Nat) : stopPoint txi m ≤ 12482 := by
  simp [stopPoint, h]

/-- R186: a number within the bounds of the draw is taken as it is. -/
theorem stopPoint_of_legal {txi m : Nat} (h1 : txi ≤ m) (h2 : m ≤ 12482) : stopPoint txi m = m := by
  simp [stopPoint]; omega

/-- Everything WRITE can do from its transmit step on: some first bytes of the buffer go out, and the transmit returns a report
and the command ends, or it hangs. -/
theorem sendFrame_cases (s : State) :
    (∃ k r, s.nextAnswers.tx = .returns k r ∧
      s.sendFrame = (s.txBlocking s.wfb.frame Config.buffSize).finishWrite r) ∨
    (∃ k, s.nextAnswers.tx = .stalls k ∧ s.sendFrame = { s.txBlocking s.wfb.frame Config.buffSize with seq := .stalled }) := by
  cases h : s.nextAnswers.tx with
  | returns k r => exact .inl ⟨k, r, rfl, by simp [State.sendFrame, h, txResult]⟩
  | stalls k => exact .inr ⟨k, rfl, by simp [State.sendFrame, h, txResult]⟩

/-- Everything CLEAR can do from its transmit step on. -/
theorem sendClear_cases (s : State) :
    (∃ k r, s.nextAnswers.tx = .returns k r ∧
      s.sendClear = (s.txBlocking (clearSeq s.v) Config.clearLen).finishClear) ∨
    (∃ k, s.nextAnswers.tx = .stalls k ∧ s.sendClear = { s.txBlocking (clearSeq s.v) Config.clearLen with seq := .stalled }) := by
  cases h : s.nextAnswers.tx with
  | returns k r => exact .inl ⟨k, r, rfl, by simp [State.sendClear, h, txResult]⟩
  | stalls k => exact .inr ⟨k, rfl, by simp [State.sendClear, h, txResult]⟩

/-- R132, R114: the buffer of a prepared frame. -/
@[simp] theorem State.prepareFrame_wfb (pix : Pixels) (s : State) :
    (s.prepareFrame pix).wfb = encodeInto pix (s.wfb.write 0 (commandByte 0x80#8 (toggled s.v))) := rfl

/-- The preparation of a frame changes `V`, the buffer, chip-select and the trace, and nothing else. -/
theorem prepareFrame_eq (pix : Pixels) (s : State) :
    s.prepareFrame pix =
      { s with
        v := toggled s.v
        wfb := encodeInto pix (s.wfb.write 0 (commandByte 0x80#8 (toggled s.v)))
        cs := .asserted
        trace := s.trace ++ [.csAssert, .wait 10] } := rfl

/-- The preparation of a frame keeps the canonical form of the buffer. -/
theorem wf_prepareFrame {s : State} (h : s.wfb.wf) (pix : Pixels) : (s.prepareFrame pix).wfb.wf :=
  wf_encodeInto (Memory.wf_write h (by simp [eaMode]) _) pix

/-- With nothing on the agenda a running block keeps all its state (R230). -/
theorem runNext_idle {s : State} (h : s.agenda = []) : runNext s = whenRunning s (.next s) := by
  simp [runNext, h]

/-- The first move of the agenda is taken. -/
theorem runNext_cons {s : State} {m : Move} {rest : List Move} (h : s.agenda = m :: rest) :
    runNext s = runMove m { s with agenda := rest } := by
  simp [runNext, h]

end Sys2Proof.Machine
end

