-- ==== Sys2Proof/Laws/Step.lean ====
section
/-! SUPPORT. One step and runs of steps: what the first move of the agenda does, what an engine move can answer, and the
unfolding of `Host.Core.run` by one step. -/

namespace Sys2Proof.Machine

/-- A packet that decodes runs its instruction. -/
theorem step_of_decode {s : State} {p : Packet} {rest : List Move} {i : Instr} (h : s.agenda = .cmd p :: rest)
    (hd : decode p = .ok i) : step s = exec i { s with agenda := rest } := by
  rw [step, runNext_cons h]; simp [runMove, runPacket, hd]

/-- Everything a step can do when it answers a next state: nothing with an empty agenda, the instruction the
packet decodes to, the fault of a reserved host word, or one of the two engine steps. -/
theorem step_next_decoded {s t : State} (h : step s = .next t) :
    (s.agenda = [] ∧ t = s) ∨
    ∃ m rest, s.agenda = m :: rest ∧
      ((∃ p i, m = .cmd p ∧ decode p = .ok i ∧ exec i { s with agenda := rest } = .next t) ∨
       (s.fault = none ∧ s.seq = .idle ∧ t = { s with agenda := rest, fault := some .reservedOpcode }) ∨
       (m = .engineByte ∧ s.fault = none ∧ s.seq = .idle ∧ s.slot = .inFlight ∧ s.txi < 12482 ∧
        t = ({ s with agenda := rest }).engineByteStep) ∨
       (m = .engineDone ∧ s.fault = none ∧ s.seq = .idle ∧ s.slot = .inFlight ∧
        t = ({ s with agenda := rest }).engineDoneStep)) := by
  rw [step] at h
  cases ha : s.agenda with
  | nil =>
    rw [runNext_idle ha] at h
    obtain ⟨-, -, h⟩ := whenRunning_next h
    cases h
    exact .inl ⟨rfl, rfl⟩
  | cons m rest =>
    rw [runNext_cons ha] at h
    refine .inr ⟨m, rest, rfl, ?_⟩
    cases m with
    | cmd p =>
      simp only [runMove, runPacket] at h
      cases hd : decode p with
      | ok i => rw [hd] at h; exact .inl ⟨p, i, rfl, hd, h⟩
      | error e =>
        rw [hd] at h
        cases e with
        | reservedOpcode cw =>
          obtain ⟨hf, hs, h⟩ := atHostPort_next h
          rw [State.raise_of_none hf] at h
          cases h
          exact .inr (.inl ⟨hf, hs, rfl⟩)
        | operandNotTaken cw =>
          obtain ⟨-, -, h⟩ := atHostPort_next h
          cases h
        | neverEmitted b =>
          obtain ⟨-, -, h⟩ := whenRunning_next h
          cases h
    | engineByte =>
      obtain ⟨hf, hs, h⟩ := atHostPort_next h
      split at h
      · next hc => cases h; exact .inr (.inr (.inl ⟨rfl, hf, hs, hc.1, hc.2, rfl⟩))
      · cases h
    | engineDone =>
      obtain ⟨hf, hs, h⟩ := atHostPort_next h
      split at h
      · next hc => cases h; exact .inr (.inr (.inr ⟨rfl, hf, hs, hc, rfl⟩))
      · cases h

/-- The same without the packet: an invariant that holds for every instruction needs no more. -/
theorem step_next {s t : State} (h : step s = .next t) :
    (s.agenda = [] ∧ t = s) ∨
    ∃ m rest, s.agenda = m :: rest ∧
      ((∃ i, exec i { s with agenda := rest } = .next t) ∨
       (s.fault = none ∧ s.seq = .idle ∧ t = { s with agenda := rest, fault := some .reservedOpcode }) ∨
       (m = .engineByte ∧ s.fault = none ∧ s.seq = .idle ∧ s.slot = .inFlight ∧ s.txi < 12482 ∧
        t = ({ s with agenda := rest }).engineByteStep) ∨
       (m = .engineDone ∧ s.fault = none ∧ s.seq = .idle ∧ s.slot = .inFlight ∧
        t = ({ s with agenda := rest }).engineDoneStep)) := by
  obtain h | ⟨m, rest, ha, ⟨_, i, -, -, h⟩ | h⟩ := step_next_decoded h
  · exact .inl h
  · exact .inr ⟨m, rest, ha, .inl ⟨i, h⟩⟩
  · exact .inr ⟨m, rest, ha, .inr h⟩

/-- Everything WIRE_FRAME_MODE can do when it answers a next state: WRITE from its transmit step on, or the engine's first byte
step. -/
theorem execWireFrameMode_next {v : Bit} {s t : State} (h : execWireFrameMode v s = .next t) :
    s.fault = none ∧ s.cs = .asserted ∧ s.wfb.read 0 = commandByte 0x80#8 v ∧
      ((s.seq = .frameReady ∧ t = s.sendFrame) ∨
       (s.seq = .idle ∧ s.slot = .inFlight ∧ s.txi = 0 ∧ t = s.engineByteStep)) := by
  obtain ⟨hf, -, h⟩ := whenRunning_next h
  split at h
  · next hc =>
    refine ⟨hf, hc.1, hc.2, ?_⟩
    split at h
    · next hq => cases h; exact .inl ⟨hq, rfl⟩
    · split at h
      · next hq => cases h; exact .inr ⟨hq.1, hq.2.1, hq.2.2, rfl⟩
      · cases h
  · cases h

/-- Everything WIRE_CLEAR can do when it answers a next state: CLEAR from its transmit
step on. -/
theorem execWireClear_next {v : Bit} {s t : State} (h : execWireClear v s = .next t) :
    s.fault = none ∧ s.cs = .asserted ∧ s.v = v ∧ s.seq = .clearReady ∧ t = s.sendClear := by
  obtain ⟨hf, -, h⟩ := whenRunning_next h
  split at h
  · next hc => cases h; exact ⟨hf, hc.1, hc.2.1, hc.2.2, rfl⟩
  · cases h

/-- An instruction that answers a next state ran on a block with no fault recorded and no transfer hung. -/
theorem exec_next_running {i : Instr} {s t : State} (h : exec i s = .next t) : s.fault = none ∧ s.seq ≠ .stalled := by
  cases i
  case wireFrameMode v => exact ⟨(whenRunning_next h).1, (whenRunning_next h).2.1⟩
  case wireClear v => exact ⟨(whenRunning_next h).1, (whenRunning_next h).2.1⟩
  all_goals
    have hc := hostCommand_next h
    exact ⟨hc.1, by simp [hc.2.1]⟩

/-- No steps. -/
theorem core_run_zero (s : State) : Host.Core.run core 0 s = .next s := rfl

/-- A run takes its first step and goes on. -/
theorem core_run_succ {s t : State} (h : step s = .next t) (n : Nat) :
    Host.Core.run core (n + 1) s = Host.Core.run core n t := by
  have h' : core.step s = .next t := h
  simp only [Host.Core.run, h']

/-! ### Runs of reads one byte at a time -/

/-- A slice begins with its first address. -/
theorem slice_succ {m : Memory} (hm : m.wf) (a n : Nat) : m.slice a (n + 1) = m.read a :: m.slice (a + 1) n := by
  simp [Memory.slice_eq_map_read hm, List.range'_succ]

/-- A slice ends with its last address. -/
theorem slice_concat {m : Memory} (hm : m.wf) (a n : Nat) : m.slice a (n + 1) = m.slice a n ++ [m.read (a + n)] := by
  simp [Memory.slice_eq_map_read hm, List.range'_concat]

/-- The empty slice. -/
@[simp] theorem slice_zero (m : Memory) (a : Nat) : m.slice a 0 = [] := by
  simp [Memory.slice, Memory.bytesFrom]

end Sys2Proof.Machine
end

