-- ==== Sys2Proof/Laws/Exec.lean ====
section
/-! SUPPORT. What each host command can do, said once: the effect of its step list for every answer of the environment, and an
inversion lemma for the case that it answers a next state. -/

namespace Sys2Proof.Machine

/-- The buffer a frame command leaves: the mode byte with the toggled `V`, then ENCODE (R132, R114). -/
abbrev State.framed (pix : Pixels) (s : State) : Memory := (s.prepareFrame pix).wfb

/-! ### Step lists -/

/-- WRITE from its transmit step on, where the transport returns. -/
theorem sendFrame_of_returns {s : State} {k : Nat} {r : Int} (h : s.nextAnswers.tx = .returns k r) :
    s.sendFrame =
      { s with
        cs := .deasserted
        trace := s.trace ++ (s.wfb.frame.take (txSent 12482 (.returns k r))).map .tx ++ [.wait 5, .csDeassert]
        responses := s.responses ++ [writeStatus r]
        seq := .idle
        answers := s.answers.tail
        draws := s.draws + 1 } := by
  rw [State.nextAnswers] at h
  simp [State.sendFrame, State.nextAnswers, h, txResult, State.finishWrite, State.respond, State.csDeassertStep,
    State.txBlocking, State.emit, State.consumeAnswers]

/-- WRITE from its transmit step on, where the transport never returns. -/
theorem sendFrame_of_stalls {s : State} {k : Nat} (h : s.nextAnswers.tx = .stalls k) :
    s.sendFrame =
      { s with
        trace := s.trace ++ (s.wfb.frame.take (txSent 12482 (.stalls k))).map .tx
        seq := .stalled
        answers := s.answers.tail
        draws := s.draws + 1 } := by
  rw [State.nextAnswers] at h
  simp [State.sendFrame, State.nextAnswers, h, txResult, State.txBlocking, State.emit, State.consumeAnswers]

/-- CLEAR from its transmit step on, where the transport returns. -/
theorem sendClear_of_returns {s : State} {k : Nat} {r : Int} (h : s.nextAnswers.tx = .returns k r) :
    s.sendClear =
      { s with
        cs := .deasserted
        trace := s.trace ++ ((clearSeq s.v).take (txSent 2 (.returns k r))).map .tx ++ [.wait 5, .csDeassert]
        responses := s.responses ++ [.ok]
        seq := .idle
        answers := s.answers.tail
        draws := s.draws + 1 } := by
  rw [State.nextAnswers] at h
  simp [State.sendClear, State.nextAnswers, h, txResult, State.finishClear, State.respond, State.csDeassertStep,
    State.txBlocking, State.emit, State.consumeAnswers, clearSeq]

/-- CLEAR from its transmit step on, where the transport never returns. -/
theorem sendClear_of_stalls {s : State} {k : Nat} (h : s.nextAnswers.tx = .stalls k) :
    s.sendClear =
      { s with
        trace := s.trace ++ ((clearSeq s.v).take (txSent 2 (.stalls k))).map .tx
        seq := .stalled
        answers := s.answers.tail
        draws := s.draws + 1 } := by
  rw [State.nextAnswers] at h
  simp [State.sendClear, State.nextAnswers, h, txResult, State.txBlocking, State.emit, State.consumeAnswers, clearSeq]

/-- A state just before a transmit draws the answers of the state before the preparation. -/
@[simp] theorem State.nextAnswers_prepareFrame (pix : Pixels) (s : State) (q : Seq) :
    ({ s.prepareFrame pix with seq := q } : State).nextAnswers = s.nextAnswers := rfl

/-- Everything the step list of WRITE_ASYNC_BEGIN can do. -/
theorem beginSteps_cases (pix : Pixels) (s : State) :
    (s.nextAnswers.accepted = true ∧ s.beginSteps pix =
      { s with
        v := toggled s.v
        wfb := s.framed pix
        slot := .inFlight
        txi := 0
        cs := .asserted
        trace := s.trace ++ [.csAssert, .wait 10, .tSubmit 12482 Config.completionTag]
        responses := s.responses ++ [.ok]
        answers := s.answers.tail
        draws := s.draws + 1 }) ∨
    (s.nextAnswers.accepted = false ∧ s.beginSteps pix =
      { s with
        v := toggled s.v
        wfb := s.framed pix
        cs := .deasserted
        trace := s.trace ++ [.csAssert, .wait 10, .tSubmit 12482 Config.completionTag, .wait 5, .csDeassert]
        responses := s.responses ++ [.asyncSubmitError]
        answers := s.answers.tail
        draws := s.draws + 1 }) := by
  cases h : s.nextAnswers.accepted
  · refine .inr ⟨rfl, ?_⟩
    rw [State.nextAnswers] at h
    simp [State.beginSteps, State.nextAnswers, h, State.submitFailed, State.csDeassertStep, State.respond,
      State.consumeAnswers, State.emit, prepareFrame_eq]
  · refine .inl ⟨rfl, ?_⟩
    rw [State.nextAnswers] at h
    simp [State.beginSteps, State.nextAnswers, h, State.submitAccepted, State.respond, State.consumeAnswers, State.emit,
      prepareFrame_eq]

/-! ### Inversion -/

/-- A legal command of the table's column (`Open`, `Empty`) was issued there. -/
theorem opened_empty_of_legal {op : HostOp} (hop : op = .write ∨ op = .writeAsyncBegin ∨ op = .clear) {l : Life} {q : Slot}
    (h : legality op l q = none) : l = .opened ∧ q = .empty := by
  rcases hop with rfl | rfl | rfl <;> cases l <;> cases q <;> simp_all [legality]

/-- Everything WRITE can do when it answers a next state: a recorded fault, or from (`Open`, `Empty`) its whole step list on an
operand of the right length. -/
theorem execWrite_next {pix : Pixels} {s t : State} (h : execWrite pix s = .next t) :
    s.fault = none ∧ s.seq = .idle ∧
      ((∃ f, t = { s with fault := some f }) ∨
       (s.life = .opened ∧ s.slot = .empty ∧ pix.length = 12000 ∧ t = s.writeSteps pix)) := by
  obtain ⟨hf, hs, ⟨f, -, e⟩ | ⟨hl, e⟩⟩ := hostCommand_next h
  · exact ⟨hf, hs, .inl ⟨f, e⟩⟩
  · refine ⟨hf, hs, ?_⟩
    obtain ⟨ho, he⟩ := opened_empty_of_legal (.inl rfl) hl
    rcases em (pix.length = 12000) with hp | hp
    · exact .inr ⟨ho, he, hp, by rw [e, withPixels_of_length hp]⟩
    · exact .inl ⟨_, by rw [e, withPixels_of_bad_length hp _ hf]⟩

/-- Everything WRITE_ASYNC_BEGIN can do when it answers a next state. -/
theorem execWriteAsyncBegin_next {pix : Pixels} {s t : State} (h : execWriteAsyncBegin pix s = .next t) :
    s.fault = none ∧ s.seq = .idle ∧
      ((∃ f, t = { s with fault := some f }) ∨
       (s.life = .opened ∧ s.slot = .empty ∧ pix.length = 12000 ∧ t = s.beginSteps pix)) := by
  obtain ⟨hf, hs, ⟨f, -, e⟩ | ⟨hl, e⟩⟩ := hostCommand_next h
  · exact ⟨hf, hs, .inl ⟨f, e⟩⟩
  · refine ⟨hf, hs, ?_⟩
    obtain ⟨ho, he⟩ := opened_empty_of_legal (.inr (.inl rfl)) hl
    rcases em (pix.length = 12000) with hp | hp
    · exact .inr ⟨ho, he, hp, by rw [e, withPixels_of_length hp]⟩
    · exact .inl ⟨_, by rw [e, withPixels_of_bad_length hp _ hf]⟩

/-- Everything WRITE_ASYNC_END can do when it answers a next state. -/
theorem execWriteAsyncEnd_next {s t : State} (h : execWriteAsyncEnd s = .next t) :
    s.fault = none ∧ s.seq = .idle ∧
      ((∃ f, t = { s with fault := some f }) ∨ (s.life = .opened ∧ s.slot = .done ∧ t = s.endSteps)) := by
  obtain ⟨hf, hs, ⟨f, -, e⟩ | ⟨hl, e⟩⟩ := hostCommand_next h
  · exact ⟨hf, hs, .inl ⟨f, e⟩⟩
  · refine ⟨hf, hs, .inr ?_⟩
    cases ho : s.life <;> cases hd : s.slot <;> simp_all [legality]

/-- Everything CLEAR can do when it answers a next state. -/
theorem execClear_next {s t : State} (h : execClear s = .next t) :
    s.fault = none ∧ s.seq = .idle ∧
      ((∃ f, t = { s with fault := some f }) ∨ (s.life = .opened ∧ s.slot = .empty ∧ t = s.clearSteps)) := by
  obtain ⟨hf, hs, ⟨f, -, e⟩ | ⟨hl, e⟩⟩ := hostCommand_next h
  · exact ⟨hf, hs, .inl ⟨f, e⟩⟩
  · obtain ⟨ho, he⟩ := opened_empty_of_legal (.inr (.inr rfl)) hl
    exact ⟨hf, hs, .inr ⟨ho, he, e⟩⟩

/-- Everything INIT can do when it answers a next state. -/
theorem execInit_next {path : Path} {s t : State} (h : execInit path s = .next t) :
    s.fault = none ∧ s.seq = .idle ∧
      ((∃ f, t = { s with fault := some f }) ∨ (s.life = .closed ∧ t = s.initSteps path)) := by
  obtain ⟨hf, hs, ⟨f, -, e⟩ | ⟨hl, e⟩⟩ := hostCommand_next h
  · exact ⟨hf, hs, .inl ⟨f, e⟩⟩
  · refine ⟨hf, hs, .inr ?_⟩
    cases ho : s.life <;> cases hd : s.slot <;> simp_all [legality]

/-- Everything CLOSE can do when it answers a next state. -/
theorem execClose_next {s t : State} (h : execClose s = .next t) :
    s.fault = none ∧ s.seq = .idle ∧
      ((∃ f, t = { s with fault := some f }) ∨ (s.life = .opened ∧ t = s.closeSteps)) := by
  obtain ⟨hf, hs, ⟨f, -, e⟩ | ⟨hl, e⟩⟩ := hostCommand_next h
  · exact ⟨hf, hs, .inl ⟨f, e⟩⟩
  · refine ⟨hf, hs, .inr ?_⟩
    cases ho : s.life <;> cases hd : s.slot <;> simp_all [legality]

end Sys2Proof.Machine
end

