-- ==== Sys2Proof/Laws/PerInstr.lean ====
section
/-! SUPPORT. Statements about an instruction as syntax, one lemma per constructor (LAWS.json). -/

namespace Sys2Proof.Laws.RoundTrip

/-- The decoder gives back what was encoded, for one instruction. -/
def Statement (i : Instr) : Prop := i.wellFormed = true → decode (encode i) = .ok i

theorem init (path : Path) : Statement (.init path) := fun _ => rfl

theorem write (pix : Pixels) : Statement (.write pix) := fun _ => rfl

theorem writeAsyncBegin (pix : Pixels) : Statement (.writeAsyncBegin pix) := fun _ => rfl

theorem writeAsyncEnd : Statement .writeAsyncEnd := fun _ => rfl

theorem clear : Statement .clear := fun _ => rfl

theorem close : Statement .close := fun _ => rfl

theorem wireFrameMode (v : Bit) : Statement (.wireFrameMode v) := by
  revert v; unfold Statement; decide

theorem wireClear (v : Bit) : Statement (.wireClear v) := by
  revert v; unfold Statement; decide

end Sys2Proof.Laws.RoundTrip
end

