-- ==== Sys2Proof/Laws/Run.lean ====
section
/-! SUPPORT. Runs of whole steps, and the premises of R147 along them: how a run grows by one step, that the state it reaches is
the only one, and that each premise holds from every later point of its run. -/

namespace Sys2Proof.Machine

/-! ### Runs -/

@[simp] theorem State.reaches_zero {s t : State} : s.Reaches 0 t ↔ s = t :=
  ⟨fun h => Host.Outcome.next.inj h, fun h => congrArg Host.Outcome.next h⟩

/-- A run of `n` steps ends in one state. -/
theorem State.Reaches.unique {s t u : State} {n : Nat} (ht : s.Reaches n t) (hu : s.Reaches n u) : t = u := by
  rw [State.Reaches] at ht hu
  exact Host.Outcome.next.inj (ht.symm.trans hu)

/-- A run takes its first step and goes on. -/
theorem State.reaches_succ {s t : State} {n : Nat} :
    s.Reaches (n + 1) t ↔ ∃ u, step s = .next u ∧ u.Reaches n t := by
  constructor
  · intro h
    cases hs : step s with
    | next u => exact ⟨u, rfl, (core_run_succ hs n).symm.trans h⟩
    | fault r =>
      have hc : core.step s = .fault r := hs
      simp [State.Reaches, Host.Core.run, hc] at h
    | refused r =>
      have hc : core.step s = .refused r := hs
      simp [State.Reaches, Host.Core.run, hc] at h
  · rintro ⟨u, hs, h⟩
    exact (core_run_succ hs n).trans h

/-- A run goes on and takes its last step. -/
theorem State.reaches_succ_last {s t : State} {n : Nat} :
    s.Reaches (n + 1) t ↔ ∃ u, s.Reaches n u ∧ step u = .next t := by
  induction n generalizing s with
  | zero => simp [State.reaches_succ]
  | succ n ih =>
    rw [State.reaches_succ]
    simp only [ih, State.reaches_succ (n := n)]
    constructor
    · rintro ⟨u, hs, w, hw, h⟩; exact ⟨w, ⟨u, hs, hw⟩, h⟩
    · rintro ⟨w, ⟨u, hs, hw⟩, h⟩; exact ⟨u, hs, w, hw, h⟩

/-- A run that finds nothing to do stays where it is (R230). -/
theorem State.Reaches.of_idle {s t : State} {n : Nat} (ha : s.agenda = []) (h : s.Reaches n t) : t = s := by
  induction n generalizing s with
  | zero => exact (State.reaches_zero.mp h).symm
  | succ n ih =>
    obtain ⟨u, hs, hu⟩ := State.reaches_succ.mp h
    obtain ⟨-, rfl⟩ | ⟨m, rest, hm, -⟩ := step_next hs
    · exact ih ha hu
    · simp [ha] at hm

/-- With nothing to do a running block goes on for ever. -/
theorem State.goes_on_of_idle {s : State} (hr : s.Ready) (ha : s.agenda = []) (n : Nat) : ∃ t, s.Reaches n t := by
  have hs : step s = .next s := by
    rw [step, runNext_idle ha, whenRunning_of_running hr.noFault (by simp [hr.between])]
  induction n with
  | zero => exact ⟨s, State.reaches_zero.mpr rfl⟩
  | succ n ih => exact ih.imp fun t ht => State.reaches_succ.mpr ⟨s, hs, ht⟩

/-- A run goes on for ever where its first step is taken and the rest does. -/
theorem State.goes_on_of_step {s t : State} (h : step s = .next t) (ht : ∀ n, ∃ u, t.Reaches n u) (n : Nat) :
    ∃ u, s.Reaches n u := by
  cases n with
  | zero => exact ⟨s, State.reaches_zero.mpr rfl⟩
  | succ n => exact (ht n).imp fun u hu => State.reaches_succ.mpr ⟨t, h, hu⟩

/-- A property that every step keeps holds all along a run. -/
theorem State.Reaches.keeps {P : State → Prop} (hP : ∀ {s t}, P s → step s = .next t → P t) {s t : State} {n : Nat}
    (hs : P s) (h : s.Reaches n t) : P t := by
  induction n generalizing s with
  | zero => exact State.reaches_zero.mp h ▸ hs
  | succ n ih =>
    obtain ⟨u, hu, h⟩ := State.reaches_succ.mp h
    exact ih (hP hs hu) h

/-! ### The instruction a state takes -/

/-- The next move stands for one instruction. -/
theorem State.Takes.unique {s : State} {i j : Instr} (hi : s.Takes i) (hj : s.Takes j) : i = j := by
  obtain ⟨p, rest, ha, hd⟩ := hi
  obtain ⟨q, rest', hb, he⟩ := hj
  simp only [ha, List.cons.injEq, Move.cmd.injEq] at hb
  obtain ⟨rfl, -⟩ := hb
  exact Except.ok.inj (hd.symm.trans he)

/-- A state that takes an instruction has something to do. -/
theorem State.Takes.agenda_ne_nil {s : State} {i : Instr} (h : s.Takes i) : s.agenda ≠ [] := by
  obtain ⟨p, rest, ha, -⟩ := h
  simp [ha]

/-- With nothing to do no blocking write is made. -/
theorem not_writesBlocking_of_idle {s : State} (h : s.agenda = []) (n : Nat) : ¬ s.WritesBlocking n :=
  fun ⟨_, hi, _⟩ => hi.agenda_ne_nil h

/-- With nothing to do nothing is submitted. -/
theorem not_submits_of_idle {s : State} (h : s.agenda = []) : ¬ s.Submits :=
  fun ⟨_, _, _, _, _, hi⟩ => hi.agenda_ne_nil h

/-- With nothing to do no transfer completes. -/
theorem not_completes_of_idle {s : State} (h : s.agenda = []) : ¬ s.Completes :=
  fun ⟨_, _, rest, ha⟩ => by simp [ha] at h

/-- With nothing to do the engine takes no step. -/
theorem not_engineSteps_of_idle {s : State} (h : s.agenda = []) : ¬ s.EngineSteps := by
  rintro ⟨-, -, ⟨rest, ha⟩ | ⟨rest, ha⟩ | ⟨v, hv⟩⟩
  · simp [ha] at h
  · simp [ha] at h
  · exact hv.agenda_ne_nil h

/-! ### The premises along a run -/

/-- `TransportReliable` is a premise about the whole run, so it holds from every later point. -/
theorem TransportReliable.of_step {s t : State} (hr : TransportReliable s) (h : step s = .next t) : TransportReliable t where
  fullReports n u k hu := hr.fullReports (n + 1) u k (State.reaches_succ.mpr ⟨t, h, hu⟩)
  submissionsAccepted n u hu := hr.submissionsAccepted (n + 1) u (State.reaches_succ.mpr ⟨t, h, hu⟩)
  sentBeforeCompletion n u hu := hr.sentBeforeCompletion (n + 1) u (State.reaches_succ.mpr ⟨t, h, hu⟩)

/-- So is `TransportLive`. -/
theorem TransportLive.of_step {s t : State} (hl : TransportLive s) (h : step s = .next t) : TransportLive t where
  writesReturn n u k hu := hl.writesReturn (n + 1) u k (State.reaches_succ.mpr ⟨t, h, hu⟩)
  engineFair n := by
    obtain ⟨m, hm, hf⟩ := hl.engineFair (n + 1)
    obtain ⟨m, rfl⟩ := Nat.exists_eq_add_of_lt (Nat.lt_of_lt_of_le (Nat.succ_pos n) hm)
    exact ⟨m, by omega, fun u hu => hf u (State.reaches_succ.mpr ⟨t, h, by simpa using hu⟩)⟩

/-- A transfer that reports the full length returns. -/
theorem txLive_of_txReliable {n : Nat} {a : TxAnswer} (h : txReliable n a) : txLive a :=
  h.imp fun _ e => ⟨n, e⟩

/-- With nothing to do, and no transfer in flight, both premises hold of the run. -/
theorem transport_of_idle {s : State} (ha : s.agenda = []) (hs : s.slot ≠ .inFlight) :
    TransportReliable s ∧ TransportLive s := by
  refine ⟨⟨fun n t k h hw => ?_, fun n t h hw => ?_, fun n t h hw => ?_⟩, ⟨fun n t k h hw => ?_, fun n => ⟨n, le_rfl, fun t h he => ?_⟩⟩⟩ <;>
    have e := h.of_idle ha <;> subst e
  · exact absurd hw (not_writesBlocking_of_idle ha k)
  · exact absurd hw (not_submits_of_idle ha)
  · exact absurd hw (not_completes_of_idle ha)
  · exact absurd hw (not_writesBlocking_of_idle ha k)
  · exact absurd he.2 hs

/-- What the premises ask of the first step is all they ask beyond the rest of the run. -/
theorem transport_of_step {s t : State} (h : step s = .next t) (ht : TransportReliable t ∧ TransportLive t)
    (hw : ∀ k, s.WritesBlocking k → txReliable k s.nextAnswers.tx) (ha : s.Submits → s.nextAnswers.accepted = true)
    (hc : s.Completes → s.txi = 12482) : TransportReliable s ∧ TransportLive s := by
  have later {n : Nat} {u : State} (hu : s.Reaches (n + 1) u) : t.Reaches n u := by
    obtain ⟨t', h', hu⟩ := State.reaches_succ.mp hu
    cases h.symm.trans h'
    exact hu
  refine ⟨⟨fun n u k hu => ?_, fun n u hu => ?_, fun n u hu => ?_⟩, ⟨fun n u k hu hk => ?_, fun n => ?_⟩⟩
  · cases n with
    | zero => cases State.reaches_zero.mp hu; exact hw k
    | succ n => exact ht.1.fullReports n u k (later hu)
  · cases n with
    | zero => cases State.reaches_zero.mp hu; exact ha
    | succ n => exact ht.1.submissionsAccepted n u (later hu)
  · cases n with
    | zero => cases State.reaches_zero.mp hu; exact hc
    | succ n => exact ht.1.sentBeforeCompletion n u (later hu)
  · cases n with
    | zero => cases State.reaches_zero.mp hu; exact txLive_of_txReliable (hw k hk)
    | succ n => exact ht.2.writesReturn n u k (later hu) hk
  · obtain ⟨m, hm, hf⟩ := ht.2.engineFair n
    exact ⟨m + 1, by omega, fun u hu => hf u (later hu)⟩

end Sys2Proof.Machine
end

