-- ==== Sys2Proof/Tests/Slice0.lean ====
section
/-! SUPPORT. Small tests, each about one step or one word, with expected results written out from spec/ (30_encoding.md and the
vectors of 95_test_vectors.md), and one witness for every obligation that has hypotheses. -/

namespace Sys2Proof.Tests

open Sys2Proof.Machine

/-! ### Well-formedness -/

theorem test_ill_formed_write_of_one_byte : (Instr.write [0x00#8]).wellFormed = false := by decide

theorem test_ill_formed_write_of_no_bytes : (Instr.write []).wellFormed = false := by decide

theorem test_ill_formed_begin_of_one_byte : (Instr.writeAsyncBegin [0x00#8]).wellFormed = false := by decide

theorem test_ill_formed_begin_one_byte_too_long :
    (Instr.writeAsyncBegin (List.replicate 12001 0x00#8)).wellFormed = false := by
  rw [Instr.wellFormed, List.length_replicate]; decide

theorem test_well_formed_write : (Instr.write (List.replicate 12000 0x00#8)).wellFormed = true :=
  (Instr.wellFormed_write _).mpr List.length_replicate

/-! ### Decoding: words written out bit by bit from R80, R81 and R87 -/

theorem test_decode_init : decode (.host 0b00000000#8 [0x70#8]) = .ok (.init [0x70#8]) := rfl

theorem test_decode_write : decode (.host 0b00000001#8 [0x12#8, 0x34#8]) = .ok (.write [0x12#8, 0x34#8]) := rfl

theorem test_decode_begin : decode (.host 0b00000010#8 [0x56#8]) = .ok (.writeAsyncBegin [0x56#8]) := rfl

theorem test_decode_end : decode (.host 0b00000011#8 []) = .ok .writeAsyncEnd := rfl

theorem test_decode_clear : decode (.host 0b00000100#8 []) = .ok .clear := rfl

theorem test_decode_close : decode (.host 0b00000101#8 []) = .ok .close := rfl

theorem test_decode_wire_frame_low : decode (.wire 0b10000000#8) = .ok (.wireFrameMode 0#1) := rfl

theorem test_decode_wire_frame_high : decode (.wire 0b11000000#8) = .ok (.wireFrameMode 1#1) := rfl

theorem test_decode_wire_clear_low : decode (.wire 0b00100000#8) = .ok (.wireClear 0#1) := rfl

theorem test_decode_wire_clear_high : decode (.wire 0b01100000#8) = .ok (.wireClear 1#1) := rfl

theorem test_decode_reserved_op : decode (.host 0b00000110#8 []) = .error (.reservedOpcode 0x06#8) := rfl

theorem test_decode_reserved_high_bits : decode (.host 0b10000100#8 []) = .error (.reservedOpcode 0x84#8) := rfl

theorem test_decode_operand_not_taken : decode (.host 0b00000101#8 [0x00#8]) = .error (.operandNotTaken 0x05#8) := rfl

/-- R94: both `W` and `CL`, neither, or a low bit. -/
theorem test_decode_wire_never_emitted :
    decode (.wire 0xA0#8) = .error (.neverEmitted 0xA0#8) ∧ decode (.wire 0x40#8) = .error (.neverEmitted 0x40#8) ∧
    decode (.wire 0x81#8) = .error (.neverEmitted 0x81#8) := ⟨rfl, rfl, rfl⟩

/-- No two rows of one format cover the same byte. -/
theorem test_rows_do_not_overlap : ∀ b : Byte,
    (hostRows.filter (·.covers b)).length ≤ 1 ∧ (wireRows.filter (·.covers b)).length ≤ 1 := by decide

/-- The decoder accepts a wire byte exactly where a row of the table covers it. -/
theorem test_rows_agree_with_the_wire_decoder : ∀ b : Byte,
    (wireRows.any (·.covers b)) = (decodeWire b).toOption.isSome := by decide

/-- The decoder accepts a host word exactly where a row of the table covers it. -/
theorem test_rows_agree_with_the_host_decoder : ∀ b : Byte,
    (hostRows.any (·.covers b)) = (decodeHost b []).toOption.isSome := by decide

theorem test_table_words_host :
    decodeTableWord 8 0x00 = some (.init []) ∧ decodeTableWord 8 0x03 = some .writeAsyncEnd ∧
    decodeTableWord 8 0x04 = some .clear ∧ decodeTableWord 8 0x05 = some .close := ⟨rfl, rfl, rfl, rfl⟩

theorem test_table_words_pixels :
    decodeTableWord 8 0x01 = some (.write (List.replicate 12000 0x00#8)) ∧
    decodeTableWord 8 0x02 = some (.writeAsyncBegin (List.replicate 12000 0x00#8)) := ⟨rfl, rfl⟩

theorem test_table_words_wire :
    decodeTableWord 8 0x80 = some (.wireFrameMode 0#1) ∧ decodeTableWord 8 0xC0 = some (.wireFrameMode 1#1) ∧
    decodeTableWord 8 0x20 = some (.wireClear 0#1) ∧ decodeTableWord 8 0x60 = some (.wireClear 1#1) := ⟨rfl, rfl, rfl, rfl⟩

theorem test_table_word_rejected : decodeTableWord 8 0x06 = none ∧ decodeTableWord 16 0x04 = none := ⟨rfl, rfl⟩

/-! ### The states of the tests -/

/-- Answers of a transport and a GPIO controller that do all they are asked. -/
def willing : EnvAnswers where
  openOk := true
  configOk := true
  claimCsOk := true
  claimDispOk := true
  tx := .returns 12482 12482
  accepted := true
  stopAt := 0
  lateSig := false

/-- The eight events of a successful INIT with an empty path (R180). -/
def initTrace : List Event :=
  [.tOpen [], .tConfig 0 8 .msbFirst Config.spiClockHz, .gClaim Config.csPin, .csDeassert, .gClaim Config.dispPin,
   .dispLow, .wait Config.tDispSettleUs, .dispHigh]

/-- "Ready" of 95_test_vectors.md, with the answers to one command. -/
def readyWith (a : EnvAnswers) : State :=
  { State.reset with life := .opened, cs := .deasserted, disp := .high, trace := initTrace, answers := [a] }

/-- "Ready", before a command whose calls all succeed. -/
def ready : State := readyWith willing

/-- "Ready", before a blocking transfer that never returns. -/
def readyToHang : State := readyWith { willing with tx := .stalls 7 }

/-- A transfer in flight that has sent `n` bytes. -/
def inFlightAt (n : Nat) : State := { ready with slot := .inFlight, cs := .asserted, txi := n }

/-- A transfer that has completed. -/
def completed : State := { ready with slot := .done, cs := .asserted, txi := 12482 }

/-- The block just before it emits the command byte of a frame, with the VCOM bit `v`. -/
def frameDue (v : Bit) : State :=
  { ready with cs := .asserted, seq := .frameReady, wfb := [(0, 0x80#8 ||| (v.setWidth 8 <<< 6))] }

/-- The block just before it emits the command byte of a clear. -/
def clearDue : State := { ready with cs := .asserted, seq := .clearReady }

/-- 12,000 pixel bytes 0x00. -/
def blank : Pixels := List.replicate 12000 0x00#8

theorem blank_length : blank.length = 12000 := List.length_replicate ..

/-- A buffer that holds one data byte. -/
def oneByte : Memory := [(2, 0x55#8)]

theorem oneByte_wf : oneByte.wf := by decide

theorem oneByte_dummies : oneByte.DummiesZero := by
  refine ⟨fun l _ => ?_, rfl⟩
  rw [oneByte, Memory.read_cons, if_neg (by simp [eaGap])]
  rfl

theorem zeroed_dummies : Memory.zeroed.DummiesZero := ⟨fun _ _ => rfl, rfl⟩

/-! ### Every row runs as the first step -/

theorem test_first_step_init : step (State.reset.withFetchWord 8 0x00) = .next (State.reset.initSteps []) := rfl

/-- R241: every host command but INIT faults at power-on. -/
theorem test_first_step_clear :
    step (State.reset.withFetchWord 8 0x04) = .next { State.reset with fault := some .notOpen } := rfl

theorem test_first_step_write :
    step (State.reset.withFetchWord 8 0x01) = .next { State.reset with fault := some .notOpen } := rfl

theorem test_first_step_wire_clear : ∃ t, step (State.reset.withFetchWord 8 0x20) = .next t := ⟨_, rfl⟩

theorem test_first_step_wire_frame : ∃ t, step (State.reset.withFetchWord 8 0xC0) = .next t := ⟨_, rfl⟩

/-! ### Bit reversal and ENCODE: vectors V-A1, V1 -/

theorem test_bitrev : bitrev 0x01#8 = 0x80#8 ∧ bitrev 0x0F#8 = 0xF0#8 ∧ bitrev 0x78#8 = 0x1E#8 ∧ bitrev 0xEF#8 = 0xF7#8 ∧
    bitrev 0xF0#8 = 0x0F#8 := by decide

theorem test_address_bytes : addressByte 119 = 0x1E#8 ∧ addressByte 238 = 0xF7#8 ∧ addressByte 239 = 0x0F#8 := by decide

/-- V-A4: the last line's addresses. -/
theorem test_offsets : eaAdr 239 = 12429 ∧ eaDst 239 0 = 12430 ∧ eaDst 239 49 = 12479 ∧ eaGap 239 = 12480 ∧
    eaFinal = 12481 ∧ eaSrc 239 49 = 11999 := by decide

/-- V1: line 0's address byte and first data byte. -/
theorem test_encode_first_line : (encodeInto blank []).read 1 = 0x80#8 ∧ (encodeInto blank []).read 2 = 0xFF#8 := ⟨rfl, rfl⟩

/-- V1: the last line's address byte and data byte, and the dummy bytes after it. -/
theorem test_encode_last_line : (encodeInto blank []).read 12429 = 0x0F#8 ∧ (encodeInto blank []).read 12479 = 0xFF#8 ∧
    (encodeInto blank []).read 12480 = 0x00#8 ∧ (encodeInto blank []).read 12481 = 0x00#8 := by
  refine ⟨read_encodeInto_adr (l := 239) Memory.wf_nil blank (by decide), ?_,
    read_encodeInto_gap (l := 239) Memory.wf_nil blank, read_encodeInto_final Memory.wf_nil blank⟩
  refine (read_encodeInto_dst (l := 239) (j := 49) Memory.wf_nil blank_length (by decide) (by decide)).trans ?_
  rw [blank, pixAt, List.getD_eq_getElem?_getD, List.getElem?_replicate]
  rfl

/-! ### Meanings -/

/-- R180, R36: a successful INIT. -/
theorem test_init : exec (.init [0x2F#8]) { State.reset with answers := [willing] } = .next
    { State.reset with
      life := .opened
      cs := .deasserted
      disp := .high
      trace := [.tOpen [0x2F#8], .tConfig 0 8 .msbFirst Config.spiClockHz, .gClaim Config.csPin, .csDeassert,
        .gClaim Config.dispPin, .dispLow, .wait Config.tDispSettleUs, .dispHigh]
      responses := [.ok]
      draws := 1 } := rfl

/-- R180 P4: the display-enable claim fails after chip-select was claimed. -/
theorem test_init_fails_at_the_last_claim :
    exec (.init []) { State.reset with answers := [{ willing with claimDispOk := false }] } = .next
    { State.reset with
      cs := .deasserted
      trace := [.tOpen [], .tConfig 0 8 .msbFirst Config.spiClockHz, .gClaim Config.csPin, .csDeassert,
        .gClaim Config.dispPin]
      responses := [.setupError]
      draws := 1 } := rfl

/-- V8: CLEAR from Ready sends `20 00`. -/
theorem test_clear : exec .clear (readyWith { willing with tx := .returns 2 2 }) = .next
    { ready with
      v := 0#1
      trace := initTrace ++ [.csAssert, .wait 10, .tx 0x20#8, .tx 0x00#8, .wait 5, .csDeassert]
      responses := [.ok]
      answers := []
      draws := 1 } := rfl

/-- R163: a CLEAR of which nothing was sent still answers `OK`, and `V` has moved. -/
theorem test_clear_short : exec .clear (readyWith { willing with tx := .returns 0 (-1) }) = .next
    { ready with
      v := 0#1
      trace := initTrace ++ [.csAssert, .wait 10, .wait 5, .csDeassert]
      responses := [.ok]
      answers := []
      draws := 1 } := rfl

/-- V7: a WRITE of the wrong length. -/
theorem test_write_bad_length : exec (.write [0x00#8]) ready = .next { ready with fault := some .badPixelLength } := rfl

/-- V13, V14, V15: the status of a short, an empty and an over-long report. -/
theorem test_write_status : writeStatus 54 = .shortWriteError ∧ writeStatus (-1) = .shortWriteError ∧
    writeStatus 12483 = .shortWriteError ∧ writeStatus 12482 = .ok := by decide

/-- V14: a WRITE of which nothing was sent. -/
theorem test_write_empty :
    ((readyWith { willing with tx := .returns 0 (-1) }).writeSteps blank).trace =
      initTrace ++ [.csAssert, .wait 10, .wait 5, .csDeassert] := by
  rw [State.writeSteps, sendFrame_of_returns (k := 0) (r := -1) rfl]
  rfl

/-- V8 in the other polarity: the mode byte of the first WRITE after power-on carries `V = 0`. -/
theorem test_mode_byte : ready.vcomToggle.modeByte = 0x80#8 ∧ ready.vcomToggle.vcomToggle.modeByte = 0xC0#8 := by decide

/-- R152: an accepted submission. -/
theorem test_begin : (ready.beginSteps blank).slot = .inFlight ∧ (ready.beginSteps blank).responses = [.ok] ∧
    (ready.beginSteps blank).trace = initTrace ++ [.csAssert, .wait 10, .tSubmit 12482 Config.completionTag] := by
  rcases beginSteps_cases blank ready with ⟨-, e⟩ | ⟨h, -⟩
  · rw [e]; exact ⟨rfl, rfl, rfl⟩
  · cases h

/-- R160. -/
theorem test_end : exec .writeAsyncEnd completed = .next
    { completed with
      slot := .empty
      cs := .deasserted
      trace := initTrace ++ [.wait 5, .csDeassert]
      responses := [.ok] } := rfl

/-- V16. -/
theorem test_end_before_done :
    exec .writeAsyncEnd (inFlightAt 12482) = .next { inFlightAt 12482 with fault := some .endBeforeDone } := rfl

/-- R186: a cancelled transfer that runs on for one byte and signals late. -/
theorem test_close_in_flight :
    exec .close { inFlightAt 12480 with answers := [{ willing with stopAt := 12481, lateSig := true }] } = .next
    { inFlightAt 12480 with
      life := .closed
      slot := .empty
      trace := initTrace ++ [.tCancel, .tx 0x00#8, .sig Config.completionTag, .tClose]
      responses := [.ok]
      answers := []
      draws := 1 } := rfl

/-- R187: a CLOSE with nothing outstanding. -/
theorem test_close_empty : exec .close ready = .next
    { ready with life := .closed, trace := initTrace ++ [.tClose], responses := [.ok] } := rfl

/-- R88: as the engine's first byte, and at WRITE's transmit step with nothing sent. -/
theorem test_wire_frame_engine : exec (.wireFrameMode 1#1) { inFlightAt 0 with wfb := [(0, 0xC0#8)] } = .next
    { inFlightAt 0 with wfb := [(0, 0xC0#8)], txi := 1, trace := initTrace ++ [.tx 0xC0#8] } := rfl

theorem test_wire_frame :
    exec (.wireFrameMode 1#1) { frameDue 1#1 with answers := [{ willing with tx := .returns 0 (-1) }] } = .next
    { frameDue 1#1 with
      cs := .deasserted
      trace := initTrace ++ [.wait 5, .csDeassert]
      responses := [.shortWriteError]
      seq := .idle
      answers := []
      draws := 1 } := by
  refine Eq.trans (b := .next ({ frameDue 1#1 with answers := [{ willing with tx := .returns 0 (-1) }] } : State).sendFrame)
    rfl ?_
  rw [sendFrame_of_returns (k := 0) (r := -1) rfl]
  rfl

/-- R89: at CLEAR's transmit step. -/
theorem test_wire_clear : exec (.wireClear 1#1) { clearDue with answers := [{ willing with tx := .returns 2 2 }] } = .next
    { clearDue with
      cs := .deasserted
      trace := initTrace ++ [.tx 0x60#8, .tx 0x00#8, .wait 5, .csDeassert]
      responses := [.ok]
      seq := .idle
      answers := []
      draws := 1 } := rfl

/-- R94: between commands with nothing in flight no command byte is due. -/
theorem test_wire_not_due : exec (.wireFrameMode 0#1) ready = .refused .wireByteNotDue ∧
    exec (.wireClear 1#1) ready = .refused .wireByteNotDue := ⟨rfl, rfl⟩

/-- R156 at the two ends of a transfer. -/
theorem test_engine_byte : engineByteMove (inFlightAt 12481) = .next
      { inFlightAt 12481 with txi := 12482, trace := initTrace ++ [.tx 0x00#8] } ∧
    engineByteMove (inFlightAt 12482) = .refused .engineStepNotEnabled := ⟨rfl, rfl⟩

/-- R84 on the host port. -/
theorem test_reserved_word : step { ready with agenda := [.cmd (.host 0x07#8 [])] } = .next
    { ready with fault := some .reservedOpcode } := rfl

/-- R31: the panel sees no setup event. -/
theorem test_panel_trace : panelTrace initTrace = [.csDeassert, .dispLow, .wait Config.tDispSettleUs, .dispHigh] := rfl

/-! ### Witnesses: a state and operands that meet all hypotheses of an obligation together, named after it -/

theorem ready_is_ready (a : EnvAnswers) : (readyWith a).Ready := ⟨rfl, rfl⟩

theorem inFlight_is_ready (n : Nat) : (inFlightAt n).Ready := ⟨rfl, rfl⟩

theorem completed_is_ready : completed.Ready := ⟨rfl, rfl⟩

theorem reset_is_ready : State.reset.Ready := ⟨rfl, rfl⟩

/-- A WRITE from Ready answers a next state without a fault, with the sequencer between commands. -/
theorem ready_write : ∃ t, exec (.write blank) ready = .next t ∧ t.fault = none ∧ t.seq = .idle := by
  refine ⟨ready.writeSteps blank, ?_, ?_⟩
  · exact (hostCommand_of_legal (op := .write) (s := ready) rfl rfl rfl).trans (congrArg _ (withPixels_of_length blank_length _ _))
  · rw [State.writeSteps, sendFrame_of_returns (k := 12482) (r := 12482) rfl]
    exact ⟨rfl, rfl⟩

/-- A submission from Ready answers a next state without a fault. -/
theorem ready_begin : ∃ t, exec (.writeAsyncBegin blank) ready = .next t ∧ t.fault = none := by
  refine ⟨ready.beginSteps blank, ?_, ?_⟩
  · exact (hostCommand_of_legal (op := .writeAsyncBegin) (s := ready) rfl rfl rfl).trans (congrArg _ (withPixels_of_length blank_length _ _))
  · rcases beginSteps_cases blank ready with ⟨-, e⟩ | ⟨-, e⟩ <;> rw [e] <;> rfl

theorem ready_clear : ∃ t, exec .clear ready = .next t ∧ t.fault = none ∧ t.seq = .idle := ⟨_, rfl, rfl, rfl⟩

theorem ready_clear_hangs : ∃ t, exec .clear readyToHang = .next t ∧ t.seq = .stalled := ⟨_, rfl, rfl⟩

theorem reset_init : ∃ t, exec (.init []) { State.reset with answers := [willing] } = .next t ∧ t.fault = none :=
  ⟨_, rfl, rfl⟩

theorem completed_end : ∃ t, exec .writeAsyncEnd completed = .next t ∧ t.fault = none := ⟨_, rfl, rfl⟩

theorem ready_close : ∃ t, exec .close ready = .next t ∧ t.fault = none := ⟨_, rfl, rfl⟩

theorem wire_frame_runs : ∃ t, exec (.wireFrameMode 1#1) (frameDue 1#1) = .next t := ⟨_, rfl⟩

theorem wire_clear_runs : ∃ t, exec (.wireClear 1#1) clearDue = .next t := ⟨_, rfl⟩

theorem reset_clear_faults : ∃ t, exec .clear State.reset = .next t ∧ t.fault ≠ none := ⟨_, rfl, by decide⟩

/-- One step that answers a next state, for the statements over steps. -/
theorem ready_steps : ∃ t, step { ready with agenda := [.cmd (.host 0x04#8 [])] } = .next t := ⟨_, rfl⟩

theorem witness_DecodeAndEncodeAgree :
    (Instr.write blank).wellFormed = true ∧ decode (.wire 0xC0#8) = .ok (.wireFrameMode 1#1) :=
  ⟨(Instr.wellFormed_write _).mpr blank_length, rfl⟩

theorem witness_ReservedHostWordsFault :
    ({ ready with agenda := [.cmd (.host 0x06#8 [])] } : State).Ready ∧ (0x06#8).toNat % 8 = 6 ∧ (0x07#8).toNat % 8 = 7 ∧
    (0x08#8).toNat / 8 ≠ 0 ∧ (0xFD#8).toNat / 8 ≠ 0 := ⟨⟨rfl, rfl⟩, by decide, by decide, by decide, by decide⟩

theorem witness_StepRunsTheNextMove :
    ({ ready with agenda := [.cmd (.host 0x05#8 [])] } : State).agenda = .cmd (.host 0x05#8 []) :: [] ∧
    decode (.host 0x05#8 []) = .ok .close ∧
    ({ inFlightAt 0 with agenda := [.engineByte] } : State).agenda = .engineByte :: [] ∧
    ({ inFlightAt 0 with agenda := [.engineDone] } : State).agenda = .engineDone :: [] ∧
    ready.Ready ∧ ready.agenda = [] := ⟨rfl, rfl, rfl, rfl, ready_is_ready _, rfl⟩

theorem witness_EncodeStoresExactlyTheLineBytes : oneByte.wf ∧ blank.length = 12000 ∧
    (∀ l < 240, (0 : Nat) ≠ eaAdr l ∧ ∀ j < 50, (0 : Nat) ≠ eaDst l j) :=
  ⟨oneByte_wf, blank_length, fun l _ => ⟨by simp [eaAdr]; omega, fun j _ => by simp [eaDst]; omega⟩⟩

theorem witness_EncodeIsItsStoresInAnyOrder : oneByte.wf ∧ blank.length = 12000 ∧
    (encodeStores blank).reverse.Perm (encodeStores blank) := ⟨oneByte_wf, blank_length, List.reverse_perm _⟩

theorem witness_EncodeForgetsEarlierFrames : oneByte.wf ∧ blank.length = 12000 ∧
    (List.replicate 12000 0xFF#8 : Pixels).length = 12000 := ⟨oneByte_wf, blank_length, List.length_replicate⟩

theorem witness_FrameLayout : blank.length = 12000 := blank_length

theorem witness_WireBitStream : blank.length = 12000 := blank_length

theorem witness_VcomToggleAndCommandByte :
    ready.v = 1#1 ∧ ({ ready with v := 0#1 } : State).v = 0#1 := ⟨rfl, rfl⟩

theorem witness_OnlyToggleCommandsMoveV :
    (∃ t, exec (.write blank) ready = .next t ∧ t.fault = none) ∧
    (∃ t, exec (.writeAsyncBegin blank) ready = .next t ∧ t.fault = none) ∧
    (∃ t, exec .clear ready = .next t ∧ t.fault = none) ∧ (∃ t, exec .clear State.reset = .next t ∧ t.fault ≠ none) ∧
    (∃ t, exec (.init []) State.reset = .next t) ∧ (∃ t, exec .writeAsyncEnd completed = .next t) ∧
    (∃ t, exec .close ready = .next t) ∧ (∃ t, exec (.wireFrameMode 1#1) (frameDue 1#1) = .next t) ∧
    ∃ t, exec (.wireClear 1#1) clearDue = .next t :=
  ⟨ready_write.imp fun _ h => ⟨h.1, h.2.1⟩, ready_begin, ready_clear.imp fun _ h => ⟨h.1, h.2.1⟩, reset_clear_faults, ⟨_, rfl⟩,
   ⟨_, rfl⟩, ⟨_, rfl⟩, wire_frame_runs, wire_clear_runs⟩

theorem witness_VcomAlternatesWithBrackets :
    VcomFollowsTrace { ready with agenda := [.cmd (.host 0x04#8 [])] } ∧
    ∃ t, step { ready with agenda := [.cmd (.host 0x04#8 [])] } = .next t := ⟨rfl, ready_steps⟩

/-- A full, a short, an empty and an over-long report, and a write that never returns, in the range of `k` and at its ends. -/
theorem witness_BlockingTransmitContract :
    ready.nextAnswers.tx = .returns 12482 (12482 : Nat) ∧
    (readyWith { willing with tx := .returns 54 54 }).nextAnswers.tx = .returns 54 54 ∧
      (54 ≤ 12482 ∧ ((54 : Int) = (12482 : Nat) → 54 = 12482)) ∧
    (readyWith { willing with tx := .returns 0 (-1) }).nextAnswers.tx = .returns 0 (-1) ∧
      (0 ≤ 12482 ∧ ((-1 : Int) = (12482 : Nat) → 0 = 12482)) ∧
    (readyWith { willing with tx := .returns 12482 12483 }).nextAnswers.tx = .returns 12482 12483 ∧
      (12482 ≤ 12482 ∧ ((12483 : Int) = (12482 : Nat) → 12482 = 12482)) ∧
    readyToHang.nextAnswers.tx = .stalls 7 ∧ 7 ≤ 12482 := by
  refine ⟨rfl, rfl, ?_, rfl, ?_, rfl, ?_, rfl, ?_⟩ <;> decide

theorem witness_WriteResult : ready.Ready ∧ ready.life = .opened ∧ ready.slot = .empty ∧
    ([] : Pixels).length ≠ 12000 ∧ blank.length = 12000 ∧ ready.nextAnswers.tx = .returns 12482 12482 ∧
    readyToHang.Ready ∧ readyToHang.life = .opened ∧ readyToHang.slot = .empty ∧ readyToHang.nextAnswers.tx = .stalls 7 ∧
    State.reset.life = .closed ∧ (inFlightAt 0).life = .opened ∧ (inFlightAt 0).slot ≠ .empty :=
  ⟨ready_is_ready _, rfl, rfl, by decide, blank_length, rfl, ready_is_ready _, rfl, rfl, rfl, rfl, rfl, by decide⟩

theorem witness_WriteSendsTheWholeFrame : ready.Ready ∧ ready.life = .opened ∧ ready.slot = .empty ∧ ready.wfb.wf ∧
    ready.wfb.DummiesZero ∧ blank.length = 12000 ∧ txReliable 12482 ready.nextAnswers.tx :=
  ⟨ready_is_ready _, rfl, rfl, Memory.wf_nil, zeroed_dummies, blank_length, 12482, rfl⟩

theorem witness_WriteIgnoresTheOldFrame : Memory.zeroed.wf ∧ oneByte.wf ∧ Memory.zeroed.DummiesZero ∧ oneByte.DummiesZero ∧
    blank.length = 12000 ∧ ready.Ready ∧ ready.life = .opened ∧ ready.slot = .empty :=
  ⟨Memory.wf_nil, oneByte_wf, zeroed_dummies, oneByte_dummies, blank_length, ready_is_ready _, rfl, rfl⟩

/-- 12,000 pixel bytes 0xFF. -/
def lit : Pixels := List.replicate 12000 0xFF#8

theorem lit_length : lit.length = 12000 := List.length_replicate ..

/-- Two different operands, and a fault that both meet. -/
theorem witness_PixelsReachOnlyBufferAndBytes : blank.length = 12000 ∧ lit.length = 12000 ∧ blank.head? ≠ lit.head? ∧
    (∃ t, exec (.write blank) ready = .next t) ∧ (∃ t, exec (.write lit) ready = .next t) ∧ ready.wfb.wf ∧
    (∃ t, exec (.write blank) State.reset = .next t) ∧ ∃ t, exec (.write lit) State.reset = .next t :=
  ⟨blank_length, lit_length, by rw [blank, lit, List.replicate_succ, List.replicate_succ]; decide,
   ready_write.imp fun _ h => h.1,
   ⟨_, (hostCommand_of_legal (op := .write) (s := ready) rfl rfl rfl).trans (congrArg _ (withPixels_of_length lit_length _ _))⟩,
   Memory.wf_nil, ⟨_, rfl⟩, ⟨_, rfl⟩⟩

theorem witness_AsyncBeginResult : ready.Ready ∧ ready.life = .opened ∧ ready.slot = .empty ∧ ([] : Pixels).length ≠ 12000 ∧
    blank.length = 12000 ∧ ready.nextAnswers.accepted = true ∧
    (readyWith { willing with accepted := false }).nextAnswers.accepted = false ∧
    State.reset.life = .closed ∧ completed.life = .opened ∧ completed.slot ≠ .empty :=
  ⟨ready_is_ready _, rfl, rfl, by decide, blank_length, rfl, rfl, rfl, rfl, by decide⟩

theorem witness_EngineByteStep : (inFlightAt 0).Ready ∧ (inFlightAt 0).slot = .inFlight ∧ (inFlightAt 0).txi < 12482 ∧
    (inFlightAt 12481).slot = .inFlight ∧ (inFlightAt 12481).txi < 12482 ∧ 12482 ≤ (inFlightAt 12482).txi ∧
    ready.slot ≠ .inFlight := by
  refine ⟨inFlight_is_ready _, ?_⟩; decide

theorem witness_EngineCompletionStep : (inFlightAt 12482).Ready ∧ (inFlightAt 12482).slot = .inFlight ∧
    (inFlightAt 0).slot = .inFlight ∧ completed.slot ≠ .inFlight := by
  refine ⟨inFlight_is_ready _, ?_⟩; decide

theorem witness_EngineRunsToCompletion :
    ({ inFlightAt 12480 with agenda := [.engineByte, .engineByte, .engineDone] } : State).Ready ∧
    (inFlightAt 12480).slot = .inFlight ∧ (inFlightAt 12480).txi ≤ 12482 ∧ (inFlightAt 12480).wfb.wf ∧
    ([.engineByte, .engineByte, .engineDone] : List Move) =
      List.replicate (12482 - (inFlightAt 12480).txi) .engineByte ++ [.engineDone] :=
  ⟨⟨rfl, rfl⟩, rfl, by decide, Memory.wf_nil, rfl⟩

theorem witness_AsyncEndResult : completed.Ready ∧ completed.life = .opened ∧ completed.slot = .done ∧
    State.reset.Ready ∧ State.reset.life = .closed ∧ ready.Ready ∧ ready.life = .opened ∧ ready.slot = .empty ∧
    (inFlightAt 0).Ready ∧ (inFlightAt 0).life = .opened ∧ (inFlightAt 0).slot = .inFlight :=
  ⟨completed_is_ready, rfl, rfl, reset_is_ready, rfl, ready_is_ready _, rfl, rfl, inFlight_is_ready _, rfl, rfl⟩

theorem witness_AsyncPathEqualsWrite : ready.Ready ∧ ready.life = .opened ∧ ready.slot = .empty ∧ ready.wfb.wf ∧
    blank.length = 12000 ∧ ready.nextAnswers.accepted = true ∧ txReliable 12482 ready.nextAnswers.tx :=
  ⟨ready_is_ready _, rfl, rfl, Memory.wf_nil, blank_length, rfl, 12482, rfl⟩

theorem witness_ClearResult : ready.Ready ∧ ready.life = .opened ∧ ready.slot = .empty ∧
    ready.nextAnswers.tx = .returns 12482 12482 ∧ readyToHang.Ready ∧ readyToHang.life = .opened ∧
    readyToHang.slot = .empty ∧ readyToHang.nextAnswers.tx = .stalls 7 ∧
    State.reset.life = .closed ∧ (inFlightAt 0).life = .opened ∧ (inFlightAt 0).slot ≠ .empty :=
  ⟨ready_is_ready _, rfl, rfl, rfl, ready_is_ready _, rfl, rfl, rfl, rfl, rfl, by decide⟩

theorem witness_InitResult : State.reset.Ready ∧ State.reset.life = .closed ∧
    (({ State.reset with answers := [{ willing with openOk := false }] } : State).nextAnswers.openOk = false) ∧
    (({ State.reset with answers := [{ willing with configOk := false }] } : State).nextAnswers.configOk = false) ∧
    (({ State.reset with answers := [{ willing with claimCsOk := false }] } : State).nextAnswers.claimCsOk = false) ∧
    (({ State.reset with answers := [{ willing with claimDispOk := false }] } : State).nextAnswers.claimDispOk = false) ∧
    (({ State.reset with answers := [willing] } : State).nextAnswers = willing) ∧ ready.Ready ∧ ready.life = .opened :=
  ⟨reset_is_ready, rfl, rfl, rfl, rfl, rfl, rfl, ready_is_ready _, rfl⟩

theorem witness_CloseResult : ready.Ready ∧ ready.life = .opened ∧ ready.slot = .empty ∧
    completed.Ready ∧ completed.life = .opened ∧ completed.slot = .done ∧
    (inFlightAt 0).Ready ∧ (inFlightAt 0).life = .opened ∧ (inFlightAt 0).slot = .inFlight ∧
    (inFlightAt 0).txi ≤ (inFlightAt 0).nextAnswers.stopAt ∧ (inFlightAt 0).nextAnswers.stopAt ≤ 12482 ∧
    (inFlightAt 12482).txi ≤ 12482 ∧ State.reset.Ready ∧ State.reset.life = .closed :=
  ⟨ready_is_ready _, rfl, rfl, completed_is_ready, rfl, rfl, inFlight_is_ready _, rfl, rfl, by decide, by decide, by decide,
   reset_is_ready, rfl⟩

theorem witness_EffectiveCancelStopsTheTransfer : (inFlightAt 5).Ready ∧ (inFlightAt 5).life = .opened ∧
    (inFlightAt 5).slot = .inFlight ∧ (inFlightAt 5).CancelEffective :=
  ⟨inFlight_is_ready _, rfl, rfl, by decide, rfl⟩

theorem witness_WireFrameModeRunsWhereEmitted :
    (frameDue 1#1).fault = none ∧ (frameDue 1#1).cs = .asserted ∧ (frameDue 1#1).seq = .frameReady ∧
    (frameDue 1#1).wfb.read 0 = (0x80#8 ||| ((1#1 : Bit).setWidth 8 <<< 6)) ∧
    (frameDue 1#1).nextAnswers.tx = .returns 12482 12482 ∧
    ({ inFlightAt 0 with wfb := [(0, 0x80#8)] } : State).wfb.read 0 = (0x80#8 ||| ((0#1 : Bit).setWidth 8 <<< 6)) ∧
    (inFlightAt 0).seq = .idle ∧ (inFlightAt 0).slot = .inFlight ∧ (inFlightAt 0).txi = 0 ∧
    ready.seq ≠ .stalled ∧ ready.seq ≠ .frameReady ∧ ready.slot ≠ .inFlight ∧ ready.cs ≠ .asserted ∧
    (frameDue 1#1).seq ≠ .stalled ∧ (frameDue 1#1).wfb.read 0 ≠ (0x80#8 ||| ((0#1 : Bit).setWidth 8 <<< 6)) := by decide

theorem witness_WireClearRunsWhereEmitted : clearDue.fault = none ∧ clearDue.cs = .asserted ∧ clearDue.v = 1#1 ∧
    clearDue.seq = .clearReady ∧ clearDue.nextAnswers.tx = .returns 12482 12482 ∧
    ready.seq ≠ .stalled ∧ ready.cs ≠ .asserted ∧ clearDue.v ≠ 0#1 := by decide

theorem witness_CommandsPassThroughTheWireRows : ready.Ready ∧ ready.life = .opened ∧ ready.slot = .empty ∧ ready.wfb.wf ∧
    blank.length = 12000 := ⟨ready_is_ready _, rfl, rfl, Memory.wf_nil, blank_length⟩

theorem witness_LegalityTable : State.reset.Ready ∧ State.reset.life = .closed ∧ ready.Ready ∧ ready.life = .opened ∧
    ready.slot = .empty ∧ blank.length = 12000 ∧ (inFlightAt 0).Ready ∧ (inFlightAt 0).life = .opened ∧
    (inFlightAt 0).slot = .inFlight ∧ completed.Ready ∧ completed.life = .opened ∧ completed.slot = .done ∧
    completed.slot ≠ .empty :=
  ⟨reset_is_ready, rfl, ready_is_ready _, rfl, rfl, blank_length, inFlight_is_ready _, rfl, rfl, completed_is_ready, rfl, rfl,
   by decide⟩

theorem witness_FaultsChangeNothingElse : ∃ t, exec .clear State.reset = .next t ∧ t.fault ≠ none := reset_clear_faults

theorem witness_NothingRunsAfterAFault : ready.fault = none ∧ ({ ready with fault := some .busy } : State).fault = some .busy :=
  ⟨rfl, rfl⟩

theorem witness_NothingRunsAfterAHang : ({ ready with seq := .stalled } : State).fault = none ∧
    ({ ready with seq := .stalled } : State).seq = .stalled := ⟨rfl, rfl⟩

theorem witness_OneStatusPerCommand :
    (∃ t, exec .clear State.reset = .next t ∧ t.fault ≠ none) ∧ (∃ t, exec .clear readyToHang = .next t ∧ t.seq = .stalled) ∧
    (∃ t, exec (.init []) { State.reset with answers := [willing] } = .next t ∧ t.fault = none) ∧
    (∃ t, exec (.write blank) ready = .next t ∧ t.fault = none ∧ t.seq = .idle) ∧
    (∃ t, exec (.writeAsyncBegin blank) ready = .next t ∧ t.fault = none) ∧
    (∃ t, exec .writeAsyncEnd completed = .next t ∧ t.fault = none) ∧
    (∃ t, exec .clear ready = .next t ∧ t.fault = none ∧ t.seq = .idle) ∧
    ∃ t, exec .close ready = .next t ∧ t.fault = none :=
  ⟨reset_clear_faults, ready_clear_hangs, reset_init, ready_write, ready_begin, completed_end, ready_clear, ready_close⟩

theorem witness_AccessTableFrame :
    (∃ t, exec (.init []) State.reset = .next t) ∧ (∃ t, exec (.write blank) ready = .next t) ∧
    (∃ t, exec (.writeAsyncBegin blank) ready = .next t) ∧ (∃ t, exec .writeAsyncEnd completed = .next t) ∧
    (∃ t, exec .clear ready = .next t) ∧ (∃ t, exec .close ready = .next t) ∧
    (∃ t, exec (.wireFrameMode 1#1) (frameDue 1#1) = .next t) ∧ ∃ t, exec (.wireClear 1#1) clearDue = .next t :=
  ⟨⟨_, rfl⟩, ready_write.imp fun _ h => h.1, ready_begin.imp fun _ h => h.1, ⟨_, rfl⟩, ⟨_, rfl⟩, ⟨_, rfl⟩, wire_frame_runs,
   wire_clear_runs⟩

theorem witness_BufferStoresOfEachInstruction : ready.wfb.wf ∧ State.reset.wfb.wf ∧ completed.wfb.wf ∧
    (frameDue 1#1).wfb.wf ∧ clearDue.wfb.wf ∧ (∃ t, exec (.write blank) ready = .next t) ∧
    eaGap 0 ≠ eaMode ∧ (∀ l < 240, eaGap 0 ≠ eaAdr l ∧ ∀ j < 50, eaGap 0 ≠ eaDst l j) ∧
    (∃ t, exec (.init []) State.reset = .next t) ∧ (∃ t, exec .writeAsyncEnd completed = .next t) ∧
    (∃ t, exec (.wireFrameMode 1#1) (frameDue 1#1) = .next t) ∧ ∃ t, exec (.wireClear 1#1) clearDue = .next t :=
  ⟨Memory.wf_nil, Memory.wf_nil, Memory.wf_nil, by decide, Memory.wf_nil, ready_write.imp fun _ h => h.1, by decide,
   fun l _ => ⟨by simp [eaGap, eaAdr]; omega, fun j hj => by simp [eaGap, eaDst]; omega⟩, ⟨_, rfl⟩, ⟨_, rfl⟩, wire_frame_runs,
   wire_clear_runs⟩

theorem witness_TraceIsAppendOnly : ∃ t, step { ready with agenda := [.cmd (.host 0x04#8 [])] } = .next t := ready_steps

/-- Ready meets the invariants, whatever is on its agenda. -/
theorem ready_inv (q : List Move) : Machine.Inv { ready with agenda := q } where
  bufferWf := Memory.wf_nil
  outstanding h := absurd rfl h
  released _ _ _ := rfl
  opened _ := ⟨rfl, zeroed_dummies⟩
  sentBound := Nat.zero_le _
  position := .inl rfl

theorem witness_StepKeepsTheInvariants : Machine.Inv { ready with agenda := [.cmd (.host 0x04#8 [])] } ∧
    ∃ t, step { ready with agenda := [.cmd (.host 0x04#8 [])] } = .next t := ⟨ready_inv _, ready_steps⟩

theorem witness_DummyBytesStayZero :
    (∃ t, exec (.init []) { State.reset with answers := [willing] } = .next t ∧ t.fault = none ∧ t.life = .opened) ∧
    ready.wfb.wf ∧ ready.wfb.DummiesZero ∧ (∃ t, step { ready with agenda := [.cmd (.host 0x04#8 [])] } = .next t) ∧
    (∀ path, Instr.write blank ≠ .init path) ∧ ∃ t, exec (.write blank) ready = .next t :=
  ⟨⟨_, rfl, rfl, rfl⟩, Memory.wf_nil, zeroed_dummies, ready_steps, fun _ => nofun, ready_write.imp fun _ h => h.1⟩

theorem witness_BufferStableWhileOutstanding : Machine.Inv { inFlightAt 12481 with agenda := [.engineByte] } ∧
    (inFlightAt 12481).slot ≠ .empty ∧ ∃ t, step { inFlightAt 12481 with agenda := [.engineByte] } = .next t := by
  refine ⟨⟨Memory.wf_nil, fun _ => ⟨rfl, rfl, rfl⟩, fun _ h => (nomatch h), fun _ => ⟨rfl, zeroed_dummies⟩, ?_, .inl rfl⟩, ?_,
    _, rfl⟩ <;> decide

theorem witness_LinesStandAsTraced : LinesFollowTrace { ready with agenda := [.cmd (.host 0x04#8 [])] } ∧
    ∃ t, step { ready with agenda := [.cmd (.host 0x04#8 [])] } = .next t := ⟨⟨rfl, rfl⟩, ready_steps⟩

theorem witness_BracketShapeIsKept : Machine.Inv { ready with agenda := [.cmd (.host 0x04#8 [])] } ∧
    BusInv { ready with agenda := [.cmd (.host 0x04#8 [])] } ∧
    ∃ t, step { ready with agenda := [.cmd (.host 0x04#8 [])] } = .next t :=
  ⟨ready_inv _, ⟨⟨{ phase := .free, closed := [] }, rfl, by simp, .inl ⟨rfl, by decide⟩⟩, fun h => nomatch h⟩, ready_steps⟩

theorem witness_ReliableCompletionSentAll :
    ((inFlightAt 12482).slot = .done → (inFlightAt 12482).txi = 12482) ∧
    State.Completes { inFlightAt 12482 with agenda := [.engineDone] } ∧
    ∃ t, step { inFlightAt 12482 with agenda := [.engineDone] } = .next t ∧ t.slot = .done :=
  ⟨fun _ => rfl, ⟨⟨rfl, rfl⟩, rfl, [], rfl⟩, _, rfl, rfl⟩

/-! ### Runs that meet the premises of R147 -/

/-- A CLEAR that the transport sends whole. -/
def clearing : State := { readyWith { willing with tx := .returns 2 2 } with agenda := [.cmd (.host 0x04#8 [])] }

/-- The last byte step of a transfer, and its completion. -/
def completing : State := { inFlightAt 12481 with agenda := [.engineByte, .engineDone] }

/-- A CLOSE in flight. -/
def cancelling : State := { inFlightAt 100 with agenda := [.cmd (.host 0x05#8 [])] }

theorem clearing_takes : clearing.Takes .clear := ⟨_, [], rfl, rfl⟩

theorem cancelling_takes : cancelling.Takes .close := ⟨_, [], rfl, rfl⟩

theorem clearing_transport : TransportReliable clearing ∧ TransportLive clearing := by
  refine transport_of_step (s := clearing) rfl (transport_of_idle rfl (by decide)) ?_ ?_ ?_
  · rintro k ⟨i, hi, hw⟩
    cases hi.unique clearing_takes
    obtain ⟨-, -, -, rfl⟩ := hw
    exact ⟨2, rfl⟩
  · rintro ⟨-, -, -, pix, -, hi⟩
    cases hi.unique clearing_takes
  · rintro ⟨-, h, -⟩
    cases h

theorem completing_transport : TransportReliable completing ∧ TransportLive completing := by
  refine transport_of_step (s := completing) rfl (transport_of_step rfl (transport_of_idle rfl (by decide)) ?_ ?_ ?_) ?_ ?_ ?_
  · rintro k ⟨i, ⟨p, rest, ha, -⟩, -⟩; cases ha
  · rintro ⟨-, -, h, -⟩; cases h
  · rintro -; rfl
  · rintro k ⟨i, ⟨p, rest, ha, -⟩, -⟩; cases ha
  · rintro ⟨-, -, h, -⟩; cases h
  · rintro ⟨-, -, rest, ha⟩; cases ha

theorem cancelling_transport : TransportReliable cancelling ∧ TransportLive cancelling := by
  refine transport_of_step (s := cancelling) rfl (transport_of_idle rfl (by decide)) ?_ ?_ ?_
  · rintro k ⟨i, hi, hw⟩
    cases hi.unique cancelling_takes
    exact hw.elim
  · rintro ⟨-, -, h, -⟩; cases h
  · rintro ⟨-, -, rest, ha⟩; cases ha

theorem witness_ReliableTransportReportsNoError : TransportReliable clearing ∧ clearing.seq ≠ .stalled ∧
    ∃ t, clearing.Reaches 1 t ∧ t.responses = [.ok] :=
  ⟨clearing_transport.1, by decide, _, rfl, rfl⟩

/-- One transfer that completes, and one that a CLOSE cancels. -/
theorem witness_LiveTransfersEnd :
    (completing.Ready ∧ completing.slot = .inFlight ∧ TransportLive completing ∧ (∀ n, ∃ t, completing.Reaches n t) ∧
      TransportReliable completing ∧ ∃ t, completing.Reaches 2 t ∧ t.slot = .done) ∧
    cancelling.Ready ∧ cancelling.slot = .inFlight ∧ TransportLive cancelling ∧ (∀ n, ∃ t, cancelling.Reaches n t) ∧
      ∃ t, cancelling.Reaches 1 t ∧ t.slot = .empty ∧ t.life = .closed :=
  ⟨⟨⟨rfl, rfl⟩, rfl, completing_transport.2,
    State.goes_on_of_step rfl (State.goes_on_of_step rfl (State.goes_on_of_idle ⟨rfl, rfl⟩ rfl)), completing_transport.1,
    _, rfl, rfl⟩,
   ⟨rfl, rfl⟩, rfl, cancelling_transport.2, State.goes_on_of_step rfl (State.goes_on_of_idle ⟨rfl, rfl⟩ rfl), _, rfl, rfl, rfl⟩

end Sys2Proof.Tests
end

section
/-! PROOFS. The obligations about the state as a whole (10_state.md): the sticky fault (R32), the dummy bytes (R24) and the
power-on values (R35). Every step is gated by `whenRunning`; and one inversion lemma says what an instruction can make of
`WFB`. -/

namespace Sys2Proof.Machine

/-! ### The gate of every step (R32) -/

/-- A fault on a state that records one already leaves the state alone (R205). -/
theorem State.raise_of_some {s : State} {g : FaultName} (h : s.fault = some g) (f : FaultName) : s.raise f = s := by
  cases s
  simp_all [State.raise]

/-- A gated step stops where a fault is recorded. -/
theorem whenRunning_of_fault {s : State} {f : FaultName} (h : s.fault = some f)
    (k : Host.Outcome State Fault Refusal) : whenRunning s k = .fault (.afterFault f) := by
  simp [whenRunning, h]

/-- The move of every agent stands behind the gate. -/
theorem exec_gated (i : Instr) (s : State) : ∃ k, exec i s = whenRunning s k := by
  cases i <;> exact ⟨_, rfl⟩

theorem rejectPacket_gated (e : DecodeError) (s : State) : ∃ k, rejectPacket e s = whenRunning s k := by
  cases e <;> exact ⟨_, rfl⟩

theorem runMove_gated (m : Move) (s : State) : ∃ k, runMove m s = whenRunning s k := by
  cases m with
  | cmd p =>
    simp only [runMove, runPacket]
    cases decode p with
    | ok i => exact exec_gated i s
    | error e => exact rejectPacket_gated e s
  | engineByte => exact ⟨_, rfl⟩
  | engineDone => exact ⟨_, rfl⟩

theorem step_gated (s : State) : ∃ k, step s = whenRunning s k := by
  cases ha : s.agenda with
  | nil => exact ⟨_, runNext_idle ha⟩
  | cons m rest =>
    obtain ⟨k, hk⟩ := runMove_gated m { s with agenda := rest }
    exact ⟨k, (runNext_cons ha).trans hk⟩

/-! ### What each step list makes of `WFB` (R37) -/

@[simp] theorem State.sendFrame_wfb (s : State) : s.sendFrame.wfb = s.wfb := by
  obtain ⟨k, r, -, h⟩ | ⟨k, -, h⟩ := sendFrame_cases s <;> simp [h]

@[simp] theorem State.sendClear_wfb (s : State) : s.sendClear.wfb = s.wfb := by
  obtain ⟨k, r, -, h⟩ | ⟨k, -, h⟩ := sendClear_cases s <;> simp [h]

@[simp] theorem State.writeSteps_wfb (pix : Pixels) (s : State) : (s.writeSteps pix).wfb = s.framed pix :=
  State.sendFrame_wfb _

@[simp] theorem State.beginSteps_wfb (pix : Pixels) (s : State) : (s.beginSteps pix).wfb = s.framed pix := by
  obtain ⟨-, h⟩ | ⟨-, h⟩ := beginSteps_cases pix s <;> rw [h]

@[simp] theorem State.endSteps_wfb (s : State) : s.endSteps.wfb = s.wfb := rfl

@[simp] theorem State.clearSteps_wfb (s : State) : s.clearSteps.wfb = s.wfb := State.sendClear_wfb _

@[simp] theorem State.cancelOutstanding_wfb (s : State) : s.cancelOutstanding.wfb = s.wfb := by
  cases h : s.slot <;> simp [State.cancelOutstanding, State.cancelledRun, h]

@[simp] theorem State.closeSteps_wfb (s : State) : s.closeSteps.wfb = s.wfb := State.cancelOutstanding_wfb s

/-- INIT either reaches its zero fill, or failed at P1 or P2 before it: then neither `WFB` nor `LIFE` is written (R180, R181). -/
theorem initSteps_wfb (path : Path) (s : State) :
    (s.initSteps path).wfb = Memory.zeroed ∨ ((s.initSteps path).wfb = s.wfb ∧ (s.initSteps path).life = s.life) := by
  simp only [State.initSteps, State.initOpen, State.initConfigure]
  cases s.nextAnswers.openOk with
  | false => exact .inr ⟨rfl, rfl⟩
  | true =>
    cases s.nextAnswers.configOk with
    | false => exact .inr ⟨rfl, rfl⟩
    | true =>
      left
      simp only [State.initClaimCs, State.initClaimDisp, State.initPowerOn, if_true]
      split
      · split <;> rfl
      · rfl

/-- Everything an instruction can make of `WFB` when it answers a next state: INIT's zero fill, the frame of a WRITE or of a
WRITE_ASYNC_BEGIN that passed its checks, or nothing. -/
theorem exec_wfb_cases {i : Instr} {s t : State} (h : exec i s = .next t) :
    t.wfb = s.wfb ∨
    (∃ path, i = .init path ∧ s.life = .closed ∧ t.wfb = Memory.zeroed) ∨
    ∃ pix, (i = .write pix ∨ i = .writeAsyncBegin pix) ∧ s.life = .opened ∧ s.slot = .empty ∧ pix.length = 12000 ∧
      t.wfb = s.framed pix := by
  cases i with
  | init path =>
    obtain ⟨-, -, ⟨f, rfl⟩ | ⟨hl, rfl⟩⟩ := execInit_next h
    · exact .inl rfl
    · obtain hz | ⟨hw, -⟩ := initSteps_wfb path s
      · exact .inr (.inl ⟨path, rfl, hl, hz⟩)
      · exact .inl hw
  | write pix =>
    obtain ⟨-, -, ⟨f, rfl⟩ | ⟨hl, hs, hp, rfl⟩⟩ := execWrite_next h
    · exact .inl rfl
    · exact .inr (.inr ⟨pix, .inl rfl, hl, hs, hp, State.writeSteps_wfb pix s⟩)
  | writeAsyncBegin pix =>
    obtain ⟨-, -, ⟨f, rfl⟩ | ⟨hl, hs, hp, rfl⟩⟩ := execWriteAsyncBegin_next h
    · exact .inl rfl
    · exact .inr (.inr ⟨pix, .inr rfl, hl, hs, hp, State.beginSteps_wfb pix s⟩)
  | writeAsyncEnd =>
    obtain ⟨-, -, ⟨f, rfl⟩ | ⟨-, -, rfl⟩⟩ := execWriteAsyncEnd_next h <;> exact .inl rfl
  | clear =>
    obtain ⟨-, -, ⟨f, rfl⟩ | ⟨-, -, rfl⟩⟩ := execClear_next h
    · exact .inl rfl
    · exact .inl (State.clearSteps_wfb s)
  | close =>
    obtain ⟨-, -, ⟨f, rfl⟩ | ⟨-, rfl⟩⟩ := execClose_next h
    · exact .inl rfl
    · exact .inl (State.closeSteps_wfb s)
  | wireFrameMode v =>
    obtain ⟨-, -, -, ⟨-, rfl⟩ | ⟨-, -, -, rfl⟩⟩ := execWireFrameMode_next h
    · exact .inl (State.sendFrame_wfb s)
    · exact .inl rfl
  | wireClear v =>
    obtain ⟨-, -, -, -, rfl⟩ := execWireClear_next h
    exact .inl (State.sendClear_wfb s)

/-- Everything a step of any agent can make of `WFB`. -/
theorem step_wfb_cases {s t : State} (h : step s = .next t) :
    t.wfb = s.wfb ∨ t.wfb = Memory.zeroed ∨ ∃ pix, t.wfb = s.framed pix := by
  obtain ⟨-, rfl⟩ | ⟨m, rest, -, ⟨i, hi⟩ | ⟨-, -, rfl⟩ | ⟨-, -, -, -, -, rfl⟩ | ⟨-, -, -, -, rfl⟩⟩ := step_next h
  · exact .inl rfl
  · obtain hw | ⟨-, -, -, hw⟩ | ⟨pix, -, -, -, -, hw⟩ := exec_wfb_cases hi
    · exact .inl hw
    · exact .inr (.inl hw)
    · exact .inr (.inr ⟨pix, hw⟩)
  · exact .inl rfl
  · exact .inl rfl
  · exact .inl rfl

/-! ### The dummy bytes (R24) -/

theorem Memory.dummiesZero_zeroed : Memory.zeroed.DummiesZero := ⟨fun _ _ => Memory.read_zeroed _, Memory.read_zeroed _⟩

/-- The buffer of a frame command: the mode byte and then ENCODE (R132, R114). -/
theorem framed_eq (pix : Pixels) (s : State) :
    s.framed pix = encodeInto pix (s.wfb.write 0 (commandByte 0x80#8 (toggled s.v))) := rfl

/-- A frame stores into no gap byte: not by its mode byte and not by ENCODE. -/
theorem read_framed_gap {s : State} (hm : s.wfb.wf) (pix : Pixels) (l : Nat) :
    (s.framed pix).read (eaGap l) = s.wfb.read (eaGap l) := by
  have hgap : eaGap l ≠ 0 := by simp [eaGap]
  rw [framed_eq, read_encodeInto_gap (Memory.wf_write hm (by decide) _), Memory.read_write hm.1, if_neg hgap]

/-- A frame does not store into the final byte. -/
theorem read_framed_final {s : State} (hm : s.wfb.wf) (pix : Pixels) :
    (s.framed pix).read eaFinal = s.wfb.read eaFinal := by
  have hfinal : eaFinal ≠ 0 := by decide
  rw [framed_eq, read_encodeInto_final (Memory.wf_write hm (by decide) _), Memory.read_write hm.1,
    if_neg hfinal]

/-- A frame keeps zero dummy bytes zero. -/
theorem dummiesZero_framed {s : State} (hm : s.wfb.wf) (hd : s.wfb.DummiesZero) (pix : Pixels) :
    (s.framed pix).DummiesZero :=
  ⟨fun l hl => (read_framed_gap hm pix l).trans (hd.1 l hl), (read_framed_final hm pix).trans hd.2⟩

/-- A successful INIT has passed its zero fill. -/
theorem execInit_zeroed {path : Path} {s t : State} (h : execInit path s = .next t) (hf : t.fault = none)
    (hl : t.life = .opened) : t.wfb = Memory.zeroed := by
  obtain ⟨-, -, ⟨f, rfl⟩ | ⟨hclosed, rfl⟩⟩ := execInit_next h
  · cases hf
  · obtain hz | ⟨-, hlife⟩ := initSteps_wfb path s
    · exact hz
    · rw [hlife, hclosed] at hl
      cases hl

/-- Every step keeps the canonical form and the zero dummy bytes. -/
theorem step_keeps_dummiesZero {s t : State} (hm : s.wfb.wf) (hd : s.wfb.DummiesZero) (h : step s = .next t) :
    t.wfb.wf ∧ t.wfb.DummiesZero := by
  obtain hw | hw | ⟨pix, hw⟩ := step_wfb_cases h <;> rw [hw]
  · exact ⟨hm, hd⟩
  · exact ⟨Memory.wf_zeroed, Memory.dummiesZero_zeroed⟩
  · exact ⟨wf_prepareFrame hm pix, dummiesZero_framed hm hd pix⟩

/-- No instruction but INIT changes a dummy byte, whatever it holds. -/
theorem exec_keeps_dummies {i : Instr} {s t : State} (hm : s.wfb.wf) (hi : ∀ path, i ≠ .init path)
    (h : exec i s = .next t) :
    (∀ l, t.wfb.read (eaGap l) = s.wfb.read (eaGap l)) ∧ t.wfb.read eaFinal = s.wfb.read eaFinal := by
  obtain hw | ⟨path, hinit, -⟩ | ⟨pix, -, -, -, -, hw⟩ := exec_wfb_cases h
  · rw [hw]; exact ⟨fun _ => rfl, rfl⟩
  · exact absurd hinit (hi path)
  · rw [hw]; exact ⟨read_framed_gap hm pix, read_framed_final hm pix⟩

/-! ### The obligations -/

/-- Settles O39: every step of every agent stands behind the gate that a recorded fault closes. -/
theorem nothingRunsAfterAFault : Obligations.NothingRunsAfterAFault := by
  refine ⟨rfl, fun s f h => State.raise_of_none h f, fun s f g h => State.raise_of_some h f, fun s f h => ?_⟩
  have stops := whenRunning_of_fault h
  refine ⟨?_, fun i => ?_, stops _, stops _⟩
  · obtain ⟨k, hk⟩ := step_gated s
    exact hk.trans (stops k)
  · obtain ⟨k, hk⟩ := exec_gated i s
    exact hk.trans (stops k)

/-- Settles O50, from what a step can make of `WFB`: the zero fill, a frame that stores into no dummy byte, or nothing. -/
theorem dummyBytesStayZero : Obligations.DummyBytesStayZero := by
  refine ⟨fun s t path h hf hl => ?_, fun s s' => step_keeps_dummiesZero, fun i s t hm hi h => ?_⟩
  · rw [execInit_zeroed h hf hl]
    exact Memory.dummiesZero_zeroed
  · obtain ⟨hgap, hfinal⟩ := exec_keeps_dummies hm hi h
    exact ⟨fun l _ => hgap l, hfinal⟩

/-- Settles O46: `State.powerOn` sets each element to its value, and `State.reset` is it with an empty buffer. -/
theorem powerOnValues : Obligations.PowerOnValues :=
  ⟨fun _ _ => ⟨rfl, rfl, rfl, rfl, rfl, rfl, rfl, rfl, rfl⟩, [], Memory.wf_nil, rfl⟩

end Sys2Proof.Machine
end

section
/-! PROOFS. The obligations about the encodings (30_encoding.md): the reserved host words (R84) and the layout of the format
FRAME (R86). The decoder is read through the two fields of R80 as a quotient and a remainder; the frame is read through one
lemma per kind of byte, at the addresses of R66 and R118. -/

namespace Sys2Proof.Machine

/-! ### The reserved host words (R80, R84) -/

/-- R80: `CW[7:3]` is the quotient by 8. -/
theorem cwZero_toNat (cw : Byte) : (cwZero cw).toNat = cw.toNat / 8 := by
  have hquot : cw.toNat / 8 < 32 := by omega
  rw [cwZero, BitVec.extractLsb'_toNat, Nat.shiftRight_eq_div_pow]
  exact Nat.mod_eq_of_lt hquot

/-- R80: `CW[2:0]` is the remainder by 8. -/
theorem cwOp_toNat (cw : Byte) : (cwOp cw).toNat = cw.toNat % 8 := by
  rw [cwOp, BitVec.extractLsb'_toNat, Nat.shiftRight_zero]

/-- The word of an operation without operand is never rejected as reserved: an operand has an error of its own. -/
theorem decodeNoOperand_ne_reserved (cw : Byte) (operand : List Byte) (i : Instr) :
    decodeNoOperand cw operand i ≠ .error (.reservedOpcode cw) := by
  cases operand <;> simp [decodeNoOperand]

/-- R84: the words that the decoder rejects as reserved. The six assigned pairs of fields fail the right side; every other pair
falls to the decoder's last line. -/
theorem decodeHost_reserved_iff (cw : Byte) (operand : List Byte) :
    decodeHost cw operand = .error (.reservedOpcode cw) ↔
      (cw.toNat / 8 ≠ 0 ∨ cw.toNat % 8 = 6 ∨ cw.toNat % 8 = 7) := by
  rw [decodeHost, cwZero_toNat, cwOp_toNat]
  split
  case h_7 hinit hwrite hbegin hend hclear hclose =>
    refine iff_of_true rfl ?_
    by_contra hassigned
    have hzero : cw.toNat / 8 = 0 := by omega
    have hop : cw.toNat % 8 = 0 ∨ cw.toNat % 8 = 1 ∨ cw.toNat % 8 = 2 ∨ cw.toNat % 8 = 3 ∨ cw.toNat % 8 = 4 ∨
      cw.toNat % 8 = 5 := by omega
    obtain h | h | h | h | h | h := hop
    exacts [hinit hzero h, hwrite hzero h, hbegin hzero h, hend hzero h, hclear hzero h, hclose hzero h]
  case h_4 | h_5 | h_6 => exact iff_of_false (decodeNoOperand_ne_reserved _ _ _) (by omega)
  case h_1 | h_2 | h_3 => exact iff_of_false nofun (by omega)

/-- R84, R205: in a ready state the rejection of a reserved word records the fault. -/
theorem rejectPacket_reserved_of_ready {s : State} (hr : s.Ready) (cw : Byte) :
    rejectPacket (.reservedOpcode cw) s = .next { s with fault := some .reservedOpcode } := by
  rw [rejectPacket, atHostPort_of_ready hr.noFault hr.between, State.raise_of_none hr.noFault]

/-- A packet that does not decode is rejected by the name of its error. -/
theorem step_of_decode_error {s : State} {p : Packet} {rest : List Move} {e : DecodeError} (h : s.agenda = .cmd p :: rest)
    (hd : decode p = .error e) : step s = rejectPacket e { s with agenda := rest } := by
  rw [step, runNext_cons h]
  simp only [runMove, runPacket, hd]

/-! ### The bytes of a frame (R86) -/

@[simp] theorem length_frameOf (v : Bit) (pix : Pixels) : (frameOf v pix).length = 12482 := by
  simp [frameOf]

/-- Every offset below the length of a frame holds the byte the format gives it. -/
theorem getElem?_frameOf (v : Bit) (pix : Pixels) {a : Nat} (ha : a < 12482) :
    (frameOf v pix)[a]? = some (frameByte v pix a) := by
  rw [frameOf, List.getElem?_map, List.getElem?_range ha, Option.map_some]

/-- R86 with R90: the address byte of a line. -/
theorem frameByte_adr (v : Bit) (pix : Pixels) {l : Nat} (hl : l < 240) :
    frameByte v pix (eaAdr l) = addressByte l := by
  have hpos : eaAdr l ≠ 0 := by simp [eaAdr]
  have hcol : (eaAdr l - 1) % 52 = 0 := by simp [eaAdr]
  have hrow : (eaAdr l - 1) / 52 = l := by simp [eaAdr]
  have hend : eaAdr l < 12481 := by simp [eaAdr]; omega
  rw [frameByte, if_neg hpos, if_pos ⟨hcol, hend⟩, hrow, addressByte, bitrev_eq_rev8]

/-- R86 with R91: the data bytes of a line. -/
theorem frameByte_dst (v : Bit) (pix : Pixels) {l j : Nat} (hl : l < 240) (hj : j < 50) :
    frameByte v pix (eaDst l j) = dataByte (pixAt pix (eaSrc l j)) := by
  have hpos : eaDst l j ≠ 0 := by simp [eaDst]
  have hcol : (eaDst l j - 1) % 52 = j + 1 := by simp [eaDst]; omega
  have hrow : (eaDst l j - 1) / 52 = l := by simp [eaDst]; omega
  have hend : eaDst l j < 12481 := by simp [eaDst]; omega
  rw [frameByte, if_neg hpos, hcol, hrow, if_neg (by omega), if_pos ⟨by omega, hend⟩, Nat.add_sub_cancel]
  rfl

/-- R86: the gap byte of a line is the last of its 52, past its address byte and its data bytes. -/
theorem frameByte_gap (v : Bit) (pix : Pixels) (l : Nat) : frameByte v pix (eaGap l) = 0x00#8 := by
  have hpos : eaGap l ≠ 0 := by simp [eaGap]
  have hcol : (eaGap l - 1) % 52 = 51 := by simp [eaGap]; omega
  rw [frameByte, if_neg hpos, hcol, if_neg (by omega), if_neg (by omega)]

/-- R86: the final byte stands behind the last line record. -/
theorem frameByte_final (v : Bit) (pix : Pixels) : frameByte v pix eaFinal = 0x00#8 := rfl

/-! ### The obligations -/

/-- Settles O2: the words of the `↔` are rejected, and the rejection of a reserved word is the fault step. The move taken off the
agenda leaves the state ready. -/
theorem reservedHostWordsFault : Obligations.ReservedHostWordsFault := by
  intro s cw operand rest
  have hiff := decodeHost_reserved_iff cw operand
  refine ⟨hiff, fun hr ha hres => ?_⟩
  have hready : State.Ready { s with agenda := rest } := ⟨hr.noFault, hr.between⟩
  exact (step_of_decode_error ha (hiff.mpr hres)).trans (rejectPacket_reserved_of_ready hready cw)

/-- Settles O11, offset by offset: each of them lies in the frame and holds its `frameByte`. -/
theorem frameLayout : Obligations.FrameLayout := by
  intro v pix _
  refine ⟨length_frameOf v pix, getElem?_frameOf v pix (by decide), fun l hl => ?_, fun l hl j hj => ?_, fun l hl => ?_,
    getElem?_frameOf v pix (by decide)⟩
  · rw [getElem?_frameOf v pix (by omega)]
    exact congrArg some (frameByte_adr v pix hl)
  · rw [getElem?_frameOf v pix (by omega)]
    exact congrArg some (frameByte_dst v pix hl hj)
  · rw [getElem?_frameOf v pix (by omega)]
    exact congrArg some (frameByte_gap v pix l)

end Sys2Proof.Machine
end

section
/-! PROOFS. The obligations about the frame encoder (40_frame_encoder.md): the bit-reversal table (R110) and the bytes that
ENCODE stores and leaves alone (R114, R115). The table is read as `rev8`, and `rev8` as a list of bits, most significant first. -/

namespace Sys2Proof.Machine

/-! ### The bit-reversal table (R110) -/

/-- R110: the table is 16 rows of 16 entries. -/
theorem length_bitrevTable : bitrevTable.length = 256 := by
  simp only [bitrevTable, List.length_append]
  rfl

/-- R9: bit `i` of `rev8 b` is bit `7 - i` of `b`, for every position `i` of a byte. -/
theorem getLsbD_rev8 (b : Byte) {i : Nat} (hi : i < 8) : (rev8 b).getLsbD i = b.getLsbD (7 - i) := by
  rw [rev8, BitVec.getLsbD_ofBoolListBE]
  interval_cases i <;> rfl

/-- R110: bit `i` of `b` weighs `2 ^ (7 - i)` in `rev8 b`. The value of the list `rev8` builds is this sum: each bit in front of
`w` others adds `2 ^ w` (`BitVec.toNat_cons'`). -/
theorem toNat_rev8 (b : Byte) :
    (rev8 b).toNat = ((List.range 8).map (fun i => (b.getLsbD i).toNat * 2 ^ (7 - i))).sum := by
  simp [rev8, BitVec.ofBoolListBE, BitVec.toNat_cons', -BitVec.toNat_cons, Nat.shiftLeft_eq, List.range_succ]

/-! ### The addresses of the line records (R66) -/

/-- The gap byte of a line stands 52 bytes above the gap byte of the line before it (R66). -/
theorem eaGap_eq (l : Nat) : eaGap l = 52 + 52 * l := by
  simp only [eaGap, Config.lineStride]
  omega

/-! ### The obligations -/

/-- Settles O6: the literal table is `rev8`, whose list of bits gives both the bits and the sum. -/
theorem bitReversalTable : Obligations.BitReversalTable := by
  refine ⟨length_bitrevTable, fun b => ?_⟩
  rw [bitrev_eq_rev8]
  exact ⟨fun i hi => getLsbD_rev8 b hi, toNat_rev8 b, rfl⟩

/-- Settles O8, address by address: ENCODE's stores go to the address bytes and the data bytes, and to no other address. -/
theorem encodeStoresExactlyTheLineBytes : Obligations.EncodeStoresExactlyTheLineBytes := by
  intro m pix s hm hp
  have hgap : ∀ l < 240, (encodeInto pix m).read (52 + 52 * l) = m.read (52 + 52 * l) := fun l _ => by
    rw [← eaGap_eq]
    exact read_encodeInto_gap hm pix l
  exact ⟨fun l hl => read_encodeInto_adr hm pix hl, fun l hl j hj => read_encodeInto_dst hm hp hl hj,
    read_encodeInto_mode hm pix, hgap, read_encodeInto_final hm pix, fun a ha => read_encodeInto_other hm pix ha,
    wf_encodeInto hm pix, rfl⟩

end Sys2Proof.Machine
end

section
/-! PROOFS. The obligations about the transfer state machine (42_transfer_state_machine.md): the legality table (R141), the
chip-select steps (R142, R143), WRITE, WRITE_ASYNC_BEGIN, WRITE_ASYNC_END and CLEAR (R148 to R162), and the two steps of the
engine (R156, R157). Each command is read in two parts: the answer of its checks, once for all commands, and the whole next
state of its step list, once for each answer of the environment. -/

namespace Sys2Proof.Machine

/-! ### The columns of the legality table (R141) -/

/-- R206: `LIFE` is read first, so a closed block admits INIT alone. -/
theorem legality_closed {op : HostOp} (hop : op ≠ .init) (q : Slot) : legality op .closed q = some .notOpen := by
  cases op with
  | init => exact absurd rfl hop
  | _ => rfl

/-- The commands that start a transfer are legal where the slot is free. -/
theorem legality_opened_empty {op : HostOp} (hop : op = .write ∨ op = .writeAsyncBegin ∨ op = .clear) :
    legality op .opened .empty = none := by
  obtain rfl | rfl | rfl := hop <;> rfl

/-- The commands that start a transfer fault while the slot is in use; they do not wait for it. -/
theorem legality_opened_busy {op : HostOp} (hop : op = .write ∨ op = .writeAsyncBegin ∨ op = .clear) {q : Slot}
    (hq : q ≠ .empty) : legality op .opened q = some .busy := by
  cases q with
  | empty => exact absurd rfl hq
  | _ => obtain rfl | rfl | rfl := hop <;> rfl

/-! ### What the checks of a host command answer in a ready state -/

section Checks

variable {s : State} {op : HostOp} {body : State → State} {pix : Pixels}

theorem hostCommand_of_closed (hr : s.Ready) (hl : s.life = .closed) (hop : op ≠ .init) :
    hostCommand op body s = .next { s with fault := some .notOpen } :=
  hostCommand_of_illegal hr.noFault hr.between (by rw [hl, legality_closed hop])

theorem hostCommand_of_busy (hr : s.Ready) (hl : s.life = .opened) (hq : s.slot ≠ .empty)
    (hop : op = .write ∨ op = .writeAsyncBegin ∨ op = .clear) :
    hostCommand op body s = .next { s with fault := some .busy } :=
  hostCommand_of_illegal hr.noFault hr.between (by rw [hl, legality_opened_busy hop hq])

theorem hostCommand_of_opened_empty (hr : s.Ready) (hl : s.life = .opened) (hq : s.slot = .empty)
    (hop : op = .write ∨ op = .writeAsyncBegin ∨ op = .clear) : hostCommand op body s = .next (body s) :=
  hostCommand_of_legal hr.noFault hr.between (by rw [hl, hq, legality_opened_empty hop])

/-- R62: past the legality check, 12,000 bytes let the step list of a frame command run. -/
theorem hostCommand_of_pixels (hr : s.Ready) (hl : s.life = .opened) (hq : s.slot = .empty)
    (hop : op = .write ∨ op = .writeAsyncBegin ∨ op = .clear) (hp : pix.length = 12000) :
    hostCommand op (withPixels pix body) s = .next (body s) := by
  rw [hostCommand_of_opened_empty hr hl hq hop, withPixels_of_length hp]

/-- R62: past the legality check, every other length is a fault. -/
theorem hostCommand_of_bad_length (hr : s.Ready) (hl : s.life = .opened) (hq : s.slot = .empty)
    (hop : op = .write ∨ op = .writeAsyncBegin ∨ op = .clear) (hp : pix.length ≠ 12000) :
    hostCommand op (withPixels pix body) s = .next { s with fault := some .badPixelLength } := by
  rw [hostCommand_of_opened_empty hr hl hq hop, withPixels_of_bad_length hp body hr.noFault]

/-- A legal command whose step list raises no fault answers a next state without one. -/
theorem hostCommand_completes (hr : s.Ready) (hlegal : legality op s.life s.slot = none) (hb : (body s).fault = s.fault) :
    ∃ t, hostCommand op body s = .next t ∧ t.fault = none :=
  ⟨_, hostCommand_of_legal hr.noFault hr.between hlegal, hb.trans hr.noFault⟩

end Checks

/-! ### The whole next state of each step list -/

/-- R148, R149: WRITE where the transport returns a report. -/
theorem writeSteps_of_returns {s : State} {k : Nat} {r : Int} (pix : Pixels) (h : s.nextAnswers.tx = .returns k r) :
    s.writeSteps pix =
      { s with
        v := toggled s.v
        wfb := s.framed pix
        cs := .deasserted
        trace := s.trace ++ [.csAssert, .wait 10] ++ ((s.framed pix).frame.take (txSent 12482 (.returns k r))).map .tx ++
          [.wait 5, .csDeassert]
        responses := s.responses ++ [writeStatus r]
        seq := .idle
        answers := s.answers.tail
        draws := s.draws + 1 } :=
  sendFrame_of_returns h

/-- R146, R148: WRITE where the transport never returns. -/
theorem writeSteps_of_stalls {s : State} {k : Nat} (pix : Pixels) (h : s.nextAnswers.tx = .stalls k) :
    s.writeSteps pix =
      { s with
        v := toggled s.v
        wfb := s.framed pix
        cs := .asserted
        trace := s.trace ++ [.csAssert, .wait 10] ++ ((s.framed pix).frame.take (txSent 12482 (.stalls k))).map .tx
        seq := .stalled
        answers := s.answers.tail
        draws := s.draws + 1 } :=
  sendFrame_of_stalls h

/-- R162: CLEAR where the transport returns, whatever it reports. -/
theorem clearSteps_of_returns {s : State} {k : Nat} {r : Int} (h : s.nextAnswers.tx = .returns k r) :
    s.clearSteps =
      { s with
        v := toggled s.v
        cs := .deasserted
        trace := s.trace ++ [.csAssert, .wait 10] ++ ((clearSeq (toggled s.v)).take (txSent 2 (.returns k r))).map .tx ++
          [.wait 5, .csDeassert]
        responses := s.responses ++ [.ok]
        seq := .idle
        answers := s.answers.tail
        draws := s.draws + 1 } :=
  sendClear_of_returns h

/-- R146, R162: CLEAR where the transport never returns. -/
theorem clearSteps_of_stalls {s : State} {k : Nat} (h : s.nextAnswers.tx = .stalls k) :
    s.clearSteps =
      { s with
        v := toggled s.v
        cs := .asserted
        trace := s.trace ++ [.csAssert, .wait 10] ++ ((clearSeq (toggled s.v)).take (txSent 2 (.stalls k))).map .tx
        seq := .stalled
        answers := s.answers.tail
        draws := s.draws + 1 } :=
  sendClear_of_stalls h

/-! ### No step list raises a fault (R205) -/

@[simp] theorem State.sendFrame_fault (s : State) : s.sendFrame.fault = s.fault := by
  obtain ⟨k, r, -, h⟩ | ⟨k, -, h⟩ := sendFrame_cases s <;> simp [h]

@[simp] theorem State.sendClear_fault (s : State) : s.sendClear.fault = s.fault := by
  obtain ⟨k, r, -, h⟩ | ⟨k, -, h⟩ := sendClear_cases s <;> simp [h]

@[simp] theorem State.writeSteps_fault (pix : Pixels) (s : State) : (s.writeSteps pix).fault = s.fault :=
  State.sendFrame_fault _

@[simp] theorem State.beginSteps_fault (pix : Pixels) (s : State) : (s.beginSteps pix).fault = s.fault := by
  obtain ⟨-, h⟩ | ⟨-, h⟩ := beginSteps_cases pix s <;> rw [h]

@[simp] theorem State.endSteps_fault (s : State) : s.endSteps.fault = s.fault := rfl

@[simp] theorem State.clearSteps_fault (s : State) : s.clearSteps.fault = s.fault := State.sendClear_fault _

@[simp] theorem State.cancelOutstanding_fault (s : State) : s.cancelOutstanding.fault = s.fault := by
  cases h : s.slot <;> simp [State.cancelOutstanding, State.cancelledRun, h]

@[simp] theorem State.closeSteps_fault (s : State) : s.closeSteps.fault = s.fault := State.cancelOutstanding_fault s

@[simp] theorem State.initClaimDisp_fault (a : EnvAnswers) (s : State) : (s.initClaimDisp a).fault = s.fault := by
  simp only [State.initClaimDisp]
  split <;> rfl

@[simp] theorem State.initClaimCs_fault (a : EnvAnswers) (s : State) : (s.initClaimCs a).fault = s.fault := by
  simp only [State.initClaimCs]
  split
  · exact State.initClaimDisp_fault a _
  · rfl

@[simp] theorem State.initConfigure_fault (a : EnvAnswers) (s : State) : (s.initConfigure a).fault = s.fault := by
  simp only [State.initConfigure]
  split
  · exact State.initClaimCs_fault a _
  · rfl

/-- R181: INIT's failure points answer a status, not a fault. -/
@[simp] theorem State.initSteps_fault (path : Path) (s : State) : (s.initSteps path).fault = s.fault := by
  simp only [State.initSteps, State.initOpen]
  split
  · exact State.initConfigure_fault _ _
  · rfl

/-! ### The engine's moves in a ready state (R156, R157) -/

theorem engineByteMove_of_enabled {s : State} (hr : s.Ready) (hq : s.slot = .inFlight) (ht : s.txi < 12482) :
    engineByteMove s = .next s.engineByteStep := by
  rw [engineByteMove, atHostPort_of_ready hr.noFault hr.between, if_pos ⟨hq, ht⟩]

theorem engineByteMove_of_not_enabled {s : State} (hr : s.Ready) (h : s.slot ≠ .inFlight ∨ 12482 ≤ s.txi) :
    engineByteMove s = .refused .engineStepNotEnabled := by
  have hdisabled : ¬ (s.slot = .inFlight ∧ s.txi < 12482) := fun ⟨hq, ht⟩ => h.elim (· hq) (Nat.not_le.mpr ht)
  rw [engineByteMove, atHostPort_of_ready hr.noFault hr.between, if_neg hdisabled]

theorem engineDoneMove_of_inFlight {s : State} (hr : s.Ready) (hq : s.slot = .inFlight) :
    engineDoneMove s = .next s.engineDoneStep := by
  rw [engineDoneMove, atHostPort_of_ready hr.noFault hr.between, if_pos hq]

theorem engineDoneMove_of_not_inFlight {s : State} (hr : s.Ready) (hq : s.slot ≠ .inFlight) :
    engineDoneMove s = .refused .engineStepNotEnabled := by
  rw [engineDoneMove, atHostPort_of_ready hr.noFault hr.between, if_neg hq]

/-- The completion step leaves the block between commands and without a fault. -/
theorem State.Ready.after_engineDoneStep {s : State} (hr : s.Ready) : s.engineDoneStep.Ready := ⟨hr.noFault, hr.between⟩

/-! ### The obligations -/

/-- Settles O17: the two steps are these record updates, with the delays of R5. -/
theorem chipSelectSteps : Obligations.ChipSelectSteps := fun _ => ⟨rfl, rfl⟩

/-- Settles O19: the checks fault in the order of R206, and past them the step list ends as the transport answers. A report
returns the sequencer to where a ready state has it. -/
theorem writeResult : Obligations.WriteResult := by
  intro s pix hr v' m
  refine ⟨fun hl => hostCommand_of_closed hr hl (by decide), fun hl hq => hostCommand_of_busy hr hl hq (.inl rfl),
    fun hl hq => ?_⟩
  have hrun (hp : pix.length = 12000) : exec (.write pix) s = .next (s.writeSteps pix) :=
    hostCommand_of_pixels hr hl hq (.inl rfl) hp
  refine ⟨fun hp => hostCommand_of_bad_length hr hl hq (.inl rfl) hp, fun hp k r htx => ?_, fun hp k htx => ?_⟩
  · rw [hrun hp, writeSteps_of_returns pix htx, hr.between]
    rfl
  · exact (hrun hp).trans (congrArg _ (writeSteps_of_stalls pix htx))

/-- Settles O23: the checks are those of WRITE, and past them the step list has one next state for each answer to the
submission (`beginSteps_cases`). -/
theorem asyncBeginResult : Obligations.AsyncBeginResult := by
  intro s pix hr v' m
  refine ⟨fun hl => hostCommand_of_closed hr hl (by decide),
    fun hl hq => hostCommand_of_busy hr hl hq (.inr (.inl rfl)), fun hl hq => ?_⟩
  have hrun (hp : pix.length = 12000) : exec (.writeAsyncBegin pix) s = .next (s.beginSteps pix) :=
    hostCommand_of_pixels hr hl hq (.inr (.inl rfl)) hp
  refine ⟨fun hp => hostCommand_of_bad_length hr hl hq (.inr (.inl rfl)) hp, fun hp haccepted => ?_,
    fun hp hrejected => ?_⟩
  · obtain ⟨-, hsteps⟩ := (beginSteps_cases pix s).resolve_right (by simp [haccepted])
    exact (hrun hp).trans (congrArg _ hsteps)
  · obtain ⟨-, hsteps⟩ := (beginSteps_cases pix s).resolve_left (by simp [hrejected])
    exact (hrun hp).trans (congrArg _ hsteps)

/-- Settles O25: in a ready state the host port lets the engine's own condition decide. -/
theorem engineByteStep : Obligations.EngineByteStep := fun _ hr =>
  ⟨engineByteMove_of_enabled hr, engineByteMove_of_not_enabled hr⟩

/-- Settles O26: the completion step leaves the slot `Done`, where the engine has no step. -/
theorem engineCompletionStep : Obligations.EngineCompletionStep := by
  refine fun s hr => ⟨fun hq => ⟨s.engineDoneStep, engineDoneMove_of_inFlight hr hq, rfl, ?_, ?_⟩,
    engineDoneMove_of_not_inFlight hr⟩
  · exact engineByteMove_of_not_enabled hr.after_engineDoneStep (.inl (by simp))
  · exact engineDoneMove_of_not_inFlight hr.after_engineDoneStep (by simp)

/-- Settles O28, cell by cell of the row of WRITE_ASYNC_END in R141. -/
theorem asyncEndResult : Obligations.AsyncEndResult := by
  refine fun s hr => ⟨fun hl => hostCommand_of_closed hr hl (by decide), fun hl hq => ?_, fun hl hq => ?_, fun hl hq => ?_⟩
  · exact hostCommand_of_illegal hr.noFault hr.between (by rw [hl, hq, legality])
  · exact hostCommand_of_illegal hr.noFault hr.between (by rw [hl, hq, legality])
  · exact hostCommand_of_legal hr.noFault hr.between (by rw [hl, hq, legality])

/-- Settles O30: past the check the step list ends as the transport answers, and no report is examined. -/
theorem clearResult : Obligations.ClearResult := by
  intro s hr v' clr
  refine ⟨fun hl => hostCommand_of_closed hr hl (by decide),
    fun hl hq => hostCommand_of_busy hr hl hq (.inr (.inr rfl)), fun hl hq => ?_⟩
  have hrun : exec .clear s = .next s.clearSteps := hostCommand_of_opened_empty hr hl hq (.inr (.inr rfl))
  refine ⟨fun k r htx => ?_, fun k htx => ?_⟩
  · rw [hrun, clearSteps_of_returns htx, hr.between]
    rfl
  · exact hrun.trans (congrArg _ (clearSteps_of_stalls htx))

/-- Settles O37: the fault cells are those of the results above, and in an ok cell the step list raises no fault. -/
theorem legalityTable : Obligations.LegalityTable := by
  intro s path pix hr
  obtain ⟨writeClosed, writeBusy, -⟩ := writeResult s pix hr
  obtain ⟨beginClosed, beginBusy, -⟩ := asyncBeginResult s pix hr
  obtain ⟨endClosed, endEmpty, endInFlight, -⟩ := asyncEndResult s hr
  obtain ⟨clearClosed, clearBusy, -⟩ := clearResult s hr
  refine ⟨fun hl => ⟨?init, writeClosed hl, beginClosed hl, endClosed hl, clearClosed hl,
      hostCommand_of_closed hr hl (by decide)⟩,
    fun hl => ⟨?initOpened, ?close⟩,
    fun hl hq => ⟨fun hp => ?write, fun hp => ?begin, endEmpty hl hq, ?clear⟩,
    fun hl hq => ⟨writeBusy hl hq, beginBusy hl hq, clearBusy hl hq⟩, endInFlight, fun hl hq => ?done⟩
  case init => exact hostCommand_completes hr (by rw [hl, legality]) (State.initSteps_fault path s)
  case initOpened => exact hostCommand_of_illegal hr.noFault hr.between (by rw [hl, legality])
  case close => exact hostCommand_completes hr (by rw [hl, legality]) (State.closeSteps_fault s)
  case write =>
    exact hostCommand_completes hr (by rw [hl, hq, legality]) (by rw [withPixels_of_length hp, State.writeSteps_fault])
  case begin =>
    exact hostCommand_completes hr (by rw [hl, hq, legality]) (by rw [withPixels_of_length hp, State.beginSteps_fault])
  case clear => exact hostCommand_completes hr (by rw [hl, hq, legality]) (State.clearSteps_fault s)
  case done => exact hostCommand_completes hr (by rw [hl, hq, legality]) (State.endSteps_fault s)

end Sys2Proof.Machine
end

section
/-! PROOFS. The obligations about the lifecycle controller (43_lifecycle.md): INIT (R180, R181) and CLOSE (R186, R187). INIT is
read stage by stage, each stage either ending at its failure point or handing on to the next; CLOSE is read by the value of
`SLOT`. -/

namespace Sys2Proof.Machine

/-! ### The stages of INIT (R180) and their failure points (R181) -/

section Stages

variable {a : EnvAnswers} {s : State}

/-- R181 P1. -/
theorem initOpen_of_failed (path : Path) (h : a.openOk = false) :
    s.initOpen path a = { s with trace := s.trace ++ [.tOpen path], responses := s.responses ++ [.setupError] } := by
  simp [State.initOpen, h, State.emit, State.respond]

theorem initOpen_of_ok (path : Path) (h : a.openOk = true) :
    s.initOpen path a = State.initConfigure a { s with trace := s.trace ++ [.tOpen path] } := by
  simp [State.initOpen, h, State.emit]

/-- R181 P2: the failure is ahead of the zero fill. -/
theorem initConfigure_of_failed (h : a.configOk = false) :
    s.initConfigure a =
      { s with
        trace := s.trace ++ [.tConfig 0 8 .msbFirst Config.spiClockHz]
        responses := s.responses ++ [.setupError] } := by
  simp [State.initConfigure, h, State.emit, State.respond]

theorem initConfigure_of_ok (h : a.configOk = true) :
    s.initConfigure a = State.initClaimCs a
      { s with wfb := Memory.zeroed, trace := s.trace ++ [.tConfig 0 8 .msbFirst Config.spiClockHz] } := by
  simp [State.initConfigure, h, State.emit]

/-- R181 P3: the line is not driven. -/
theorem initClaimCs_of_failed (h : a.claimCsOk = false) :
    s.initClaimCs a =
      { s with trace := s.trace ++ [.gClaim Config.csPin], responses := s.responses ++ [.setupError] } := by
  simp [State.initClaimCs, h, State.emit, State.respond]

theorem initClaimCs_of_ok (h : a.claimCsOk = true) :
    s.initClaimCs a = State.initClaimDisp a
      { s with cs := .deasserted, trace := s.trace ++ [.gClaim Config.csPin, .csDeassert] } := by
  simp [State.initClaimCs, h, State.emit]

/-- R181 P4. -/
theorem initClaimDisp_of_failed (h : a.claimDispOk = false) :
    s.initClaimDisp a =
      { s with trace := s.trace ++ [.gClaim Config.dispPin], responses := s.responses ++ [.setupError] } := by
  simp [State.initClaimDisp, h, State.emit, State.respond]

/-- R180: past the last failure point the display is enabled and the block is open. -/
theorem initClaimDisp_of_ok (h : a.claimDispOk = true) :
    s.initClaimDisp a =
      { s with
        life := .opened
        disp := .high
        trace := s.trace ++ [.gClaim Config.dispPin, .dispLow, .wait Config.tDispSettleUs, .dispHigh]
        responses := s.responses ++ [.ok] } := by
  simp [State.initClaimDisp, State.initPowerOn, h, State.emit, State.respond]

end Stages

/-! ### The whole next state of CLOSE's step list, for each value of `SLOT` (R186) -/

/-- With no transfer outstanding nothing is cancelled. -/
theorem closeSteps_of_empty {s : State} (hq : s.slot = .empty) :
    s.closeSteps =
      { s with
        life := .closed
        slot := .empty
        trace := s.trace ++ [.tClose]
        responses := s.responses ++ [.ok] } := by
  simp [State.closeSteps, State.cancelOutstanding, hq, State.emit, State.respond]

/-- A transfer that has completed is cancelled without effect on the bus: no byte and no signal follows. -/
theorem closeSteps_of_done {s : State} (hq : s.slot = .done) :
    s.closeSteps =
      { s with
        life := .closed
        slot := .empty
        trace := s.trace ++ [.tCancel, .tClose]
        responses := s.responses ++ [.ok] } := by
  simp [State.closeSteps, State.cancelOutstanding, hq, State.emit, State.respond]

/-- What may still go out is the answer to the call that `T_CANCEL` records. -/
theorem cancelledRun_after_cancel (s : State) :
    (s.emit [.tCancel]).cancelledRun =
      { s with
        trace := s.trace ++ [.tCancel] ++
          ((s.wfb.slice s.txi (stopPoint s.txi s.nextAnswers.stopAt - s.txi)).map .tx ++
            (if s.nextAnswers.lateSig = true then [.sig Config.completionTag] else []))
        answers := s.answers.tail
        draws := s.draws + 1 } := rfl

/-- A transfer in flight may run on to the drawn point, and its signal may still come, between the cancel and the close. -/
theorem closeSteps_of_inFlight {s : State} (hq : s.slot = .inFlight) :
    s.closeSteps =
      { s with
        life := .closed
        slot := .empty
        trace := s.trace ++ [.tCancel] ++
          (s.wfb.slice s.txi (stopPoint s.txi s.nextAnswers.stopAt - s.txi)).map .tx ++
          (if s.nextAnswers.lateSig = true then [.sig Config.completionTag] else []) ++ [.tClose]
        responses := s.responses ++ [.ok]
        answers := s.answers.tail
        draws := s.draws + 1 } := by
  simp [State.closeSteps, State.cancelOutstanding, hq, cancelledRun_after_cancel, State.respond]

/-! ### The obligations -/

/-- Settles O31: a closed block runs the stages in order, as far as the environment lets them. -/
theorem initResult : Obligations.InitResult := by
  intro s path hr a cfg u
  refine ⟨fun hl => hostCommand_of_illegal hr.noFault hr.between (by rw [hl, legality]), fun hl => ?_,
    Memory.read_zeroed⟩
  have hrun : exec (.init path) s = .next (u.initOpen path a) :=
    hostCommand_of_legal hr.noFault hr.between (by rw [hl, legality])
  rw [hrun]
  refine ⟨fun hopen => ?p1, fun hopen hconfig => ?p2, fun hopen hconfig hcs => ?p3, fun hopen hconfig hcs hdisp => ?p4,
    fun hopen hconfig hcs hdisp => ?success⟩
  case p1 => rw [initOpen_of_failed path hopen]
  case p2 =>
    rw [initOpen_of_ok path hopen, initConfigure_of_failed hconfig]
    simp [u, cfg]
  case p3 =>
    rw [initOpen_of_ok path hopen, initConfigure_of_ok hconfig, initClaimCs_of_failed hcs]
    simp [u, cfg]
  case p4 =>
    rw [initOpen_of_ok path hopen, initConfigure_of_ok hconfig, initClaimCs_of_ok hcs, initClaimDisp_of_failed hdisp]
    simp [u, cfg]
  case success =>
    rw [initOpen_of_ok path hopen, initConfigure_of_ok hconfig, initClaimCs_of_ok hcs, initClaimDisp_of_ok hdisp]
    simp [u, cfg]

/-- Settles O32: an open block closes whatever its slot holds, and the draw of `m` is bounded and exhaustive. -/
theorem closeResult : Obligations.CloseResult := by
  intro s hr m c
  refine ⟨fun hl => hostCommand_of_closed hr hl (by decide), fun hl => ?_, le_stopPoint s.txi _,
    fun ht => stopPoint_le ht _, stopPoint_of_legal⟩
  have hrun : exec .close s = .next s.closeSteps := hostCommand_of_legal hr.noFault hr.between (by rw [hl, legality])
  rw [hrun]
  exact ⟨fun hq => congrArg _ (closeSteps_of_empty hq), fun hq => congrArg _ (closeSteps_of_done hq),
    fun hq => congrArg _ (closeSteps_of_inFlight hq)⟩

end Sys2Proof.Machine
end

section
/-! PROOFS. What the eight instructions can do, said once: `State.Ends` has one constructor for each way an instruction can end
without a fault, with the whole next state. The statements over all instructions or over all steps are case analyses of it, and
an invariant of the block is packaged once (`step_invariant`). -/

namespace Sys2Proof.Machine

/-- `s.Ends i t`: in `s` the instruction `i` runs past its checks, and `t` is the state it ends in, or hangs in (R148, R149,
R152, R153, R160, R162, R180, R181, R186, log entry 7). The engine's byte step, which WIRE_FRAME_MODE can also be, is not
among them: `exec_next` names it. -/
inductive State.Ends (s : State) : Instr → State → Prop
  | initOpenFails (path : Path) (hs : s.seq = .idle) (hl : s.life = .closed) :
      s.Ends (.init path)
        { s with
          trace := s.trace ++ [.tOpen path]
          responses := s.responses ++ [.setupError]
          answers := s.answers.tail
          draws := s.draws + 1 }
  | initConfigureFails (path : Path) (hs : s.seq = .idle) (hl : s.life = .closed) :
      s.Ends (.init path)
        { s with
          trace := s.trace ++ [.tOpen path, .tConfig 0 8 .msbFirst Config.spiClockHz]
          responses := s.responses ++ [.setupError]
          answers := s.answers.tail
          draws := s.draws + 1 }
  | initClaimCsFails (path : Path) (hs : s.seq = .idle) (hl : s.life = .closed) :
      s.Ends (.init path)
        { s with
          wfb := Memory.zeroed
          trace := s.trace ++ [.tOpen path, .tConfig 0 8 .msbFirst Config.spiClockHz, .gClaim Config.csPin]
          responses := s.responses ++ [.setupError]
          answers := s.answers.tail
          draws := s.draws + 1 }
  | initClaimDispFails (path : Path) (hs : s.seq = .idle) (hl : s.life = .closed) :
      s.Ends (.init path)
        { s with
          wfb := Memory.zeroed
          cs := .deasserted
          trace := s.trace ++ [.tOpen path, .tConfig 0 8 .msbFirst Config.spiClockHz, .gClaim Config.csPin, .csDeassert,
            .gClaim Config.dispPin]
          responses := s.responses ++ [.setupError]
          answers := s.answers.tail
          draws := s.draws + 1 }
  | initSucceeds (path : Path) (hs : s.seq = .idle) (hl : s.life = .closed) :
      s.Ends (.init path)
        { s with
          life := .opened
          wfb := Memory.zeroed
          cs := .deasserted
          disp := .high
          trace := s.trace ++ [.tOpen path, .tConfig 0 8 .msbFirst Config.spiClockHz, .gClaim Config.csPin, .csDeassert,
            .gClaim Config.dispPin, .dispLow, .wait Config.tDispSettleUs, .dispHigh]
          responses := s.responses ++ [.ok]
          answers := s.answers.tail
          draws := s.draws + 1 }
  | writeReturns (pix : Pixels) (hs : s.seq = .idle) (hl : s.life = .opened) (hq : s.slot = .empty)
      (hp : pix.length = 12000) (k : Nat) (r : Int) (htx : s.nextAnswers.tx = .returns k r) :
      s.Ends (.write pix)
        { s with
          v := toggled s.v
          wfb := s.framed pix
          cs := .deasserted
          trace := s.trace ++ [.csAssert, .wait 10] ++ ((s.framed pix).frame.take (txSent 12482 (.returns k r))).map .tx ++
            [.wait 5, .csDeassert]
          responses := s.responses ++ [writeStatus r]
          seq := .idle
          answers := s.answers.tail
          draws := s.draws + 1 }
  | writeHangs (pix : Pixels) (hs : s.seq = .idle) (hl : s.life = .opened) (hq : s.slot = .empty)
      (hp : pix.length = 12000) (k : Nat) (htx : s.nextAnswers.tx = .stalls k) :
      s.Ends (.write pix)
        { s with
          v := toggled s.v
          wfb := s.framed pix
          cs := .asserted
          trace := s.trace ++ [.csAssert, .wait 10] ++ ((s.framed pix).frame.take (txSent 12482 (.stalls k))).map .tx
          seq := .stalled
          answers := s.answers.tail
          draws := s.draws + 1 }
  | beginAccepted (pix : Pixels) (hs : s.seq = .idle) (hl : s.life = .opened) (hq : s.slot = .empty)
      (hp : pix.length = 12000) (ha : s.nextAnswers.accepted = true) :
      s.Ends (.writeAsyncBegin pix)
        { s with
          v := toggled s.v
          wfb := s.framed pix
          slot := .inFlight
          txi := 0
          cs := .asserted
          trace := s.trace ++ [.csAssert, .wait 10, .tSubmit 12482 Config.completionTag]
          responses := s.responses ++ [.ok]
          answers := s.answers.tail
          draws := s.draws + 1 }
  | beginRejected (pix : Pixels) (hs : s.seq = .idle) (hl : s.life = .opened) (hq : s.slot = .empty)
      (hp : pix.length = 12000) (ha : s.nextAnswers.accepted = false) :
      s.Ends (.writeAsyncBegin pix)
        { s with
          v := toggled s.v
          wfb := s.framed pix
          cs := .deasserted
          trace := s.trace ++ [.csAssert, .wait 10, .tSubmit 12482 Config.completionTag, .wait 5, .csDeassert]
          responses := s.responses ++ [.asyncSubmitError]
          answers := s.answers.tail
          draws := s.draws + 1 }
  | endRetires (hs : s.seq = .idle) (hl : s.life = .opened) (hq : s.slot = .done) :
      s.Ends .writeAsyncEnd
        { s with
          slot := .empty
          cs := .deasserted
          trace := s.trace ++ [.wait 5, .csDeassert]
          responses := s.responses ++ [.ok] }
  | clearReturns (hs : s.seq = .idle) (hl : s.life = .opened) (hq : s.slot = .empty) (k : Nat) (r : Int)
      (htx : s.nextAnswers.tx = .returns k r) :
      s.Ends .clear
        { s with
          v := toggled s.v
          cs := .deasserted
          trace := s.trace ++ [.csAssert, .wait 10] ++ ((clearSeq (toggled s.v)).take (txSent 2 (.returns k r))).map .tx ++
            [.wait 5, .csDeassert]
          responses := s.responses ++ [.ok]
          seq := .idle
          answers := s.answers.tail
          draws := s.draws + 1 }
  | clearHangs (hs : s.seq = .idle) (hl : s.life = .opened) (hq : s.slot = .empty) (k : Nat)
      (htx : s.nextAnswers.tx = .stalls k) :
      s.Ends .clear
        { s with
          v := toggled s.v
          cs := .asserted
          trace := s.trace ++ [.csAssert, .wait 10] ++ ((clearSeq (toggled s.v)).take (txSent 2 (.stalls k))).map .tx
          seq := .stalled
          answers := s.answers.tail
          draws := s.draws + 1 }
  | closeEmpty (hs : s.seq = .idle) (hl : s.life = .opened) (hq : s.slot = .empty) :
      s.Ends .close
        { s with
          life := .closed
          slot := .empty
          trace := s.trace ++ [.tClose]
          responses := s.responses ++ [.ok] }
  | closeDone (hs : s.seq = .idle) (hl : s.life = .opened) (hq : s.slot = .done) :
      s.Ends .close
        { s with
          life := .closed
          slot := .empty
          trace := s.trace ++ [.tCancel, .tClose]
          responses := s.responses ++ [.ok] }
  | closeInFlight (hs : s.seq = .idle) (hl : s.life = .opened) (hq : s.slot = .inFlight) :
      s.Ends .close
        { s with
          life := .closed
          slot := .empty
          trace := s.trace ++ [.tCancel] ++
            (s.wfb.slice s.txi (stopPoint s.txi s.nextAnswers.stopAt - s.txi)).map .tx ++
            (if s.nextAnswers.lateSig = true then [.sig Config.completionTag] else []) ++ [.tClose]
          responses := s.responses ++ [.ok]
          answers := s.answers.tail
          draws := s.draws + 1 }
  | wireFrameReturns (v : Bit) (hs : s.seq = .frameReady) (hcs : s.cs = .asserted)
      (hb : s.wfb.read 0 = commandByte 0x80#8 v) (k : Nat) (r : Int) (htx : s.nextAnswers.tx = .returns k r) :
      s.Ends (.wireFrameMode v)
        { s with
          cs := .deasserted
          trace := s.trace ++ (s.wfb.frame.take (txSent 12482 (.returns k r))).map .tx ++ [.wait 5, .csDeassert]
          responses := s.responses ++ [writeStatus r]
          seq := .idle
          answers := s.answers.tail
          draws := s.draws + 1 }
  | wireFrameHangs (v : Bit) (hs : s.seq = .frameReady) (hcs : s.cs = .asserted)
      (hb : s.wfb.read 0 = commandByte 0x80#8 v) (k : Nat) (htx : s.nextAnswers.tx = .stalls k) :
      s.Ends (.wireFrameMode v)
        { s with
          trace := s.trace ++ (s.wfb.frame.take (txSent 12482 (.stalls k))).map .tx
          seq := .stalled
          answers := s.answers.tail
          draws := s.draws + 1 }
  | wireClearReturns (v : Bit) (hs : s.seq = .clearReady) (hcs : s.cs = .asserted) (hv : s.v = v) (k : Nat) (r : Int)
      (htx : s.nextAnswers.tx = .returns k r) :
      s.Ends (.wireClear v)
        { s with
          cs := .deasserted
          trace := s.trace ++ ((clearSeq s.v).take (txSent 2 (.returns k r))).map .tx ++ [.wait 5, .csDeassert]
          responses := s.responses ++ [.ok]
          seq := .idle
          answers := s.answers.tail
          draws := s.draws + 1 }
  | wireClearHangs (v : Bit) (hs : s.seq = .clearReady) (hcs : s.cs = .asserted) (hv : s.v = v) (k : Nat)
      (htx : s.nextAnswers.tx = .stalls k) :
      s.Ends (.wireClear v)
        { s with
          trace := s.trace ++ ((clearSeq s.v).take (txSent 2 (.stalls k))).map .tx
          seq := .stalled
          answers := s.answers.tail
          draws := s.draws + 1 }

/-! ### Every step list ends in one of these ways -/

/-- The four failure points of INIT and its success, in the order of its stages. -/
theorem initSteps_ends {s : State} (path : Path) (hs : s.seq = .idle) (hl : s.life = .closed) :
    s.Ends (.init path) (s.initSteps path) := by
  have hsteps : s.initSteps path = State.initOpen path s.nextAnswers s.consumeAnswers := rfl
  rw [hsteps]
  cases hopen : s.nextAnswers.openOk with
  | false =>
    rw [initOpen_of_failed path hopen]
    exact .initOpenFails path hs hl
  | true =>
  rw [initOpen_of_ok path hopen]
  cases hconfig : s.nextAnswers.configOk with
  | false =>
    rw [initConfigure_of_failed hconfig]
    simpa using State.Ends.initConfigureFails path hs hl
  | true =>
  rw [initConfigure_of_ok hconfig]
  cases hcs : s.nextAnswers.claimCsOk with
  | false =>
    rw [initClaimCs_of_failed hcs]
    simpa using State.Ends.initClaimCsFails path hs hl
  | true =>
  rw [initClaimCs_of_ok hcs]
  cases hdisp : s.nextAnswers.claimDispOk with
  | false =>
    rw [initClaimDisp_of_failed hdisp]
    simpa using State.Ends.initClaimDispFails path hs hl
  | true =>
    rw [initClaimDisp_of_ok hdisp]
    simpa using State.Ends.initSucceeds path hs hl

theorem writeSteps_ends {s : State} {pix : Pixels} (hs : s.seq = .idle) (hl : s.life = .opened) (hq : s.slot = .empty)
    (hp : pix.length = 12000) : s.Ends (.write pix) (s.writeSteps pix) := by
  cases htx : s.nextAnswers.tx with
  | returns k r => exact writeSteps_of_returns pix htx ▸ .writeReturns pix hs hl hq hp k r htx
  | stalls k => exact writeSteps_of_stalls pix htx ▸ .writeHangs pix hs hl hq hp k htx

theorem beginSteps_ends {s : State} {pix : Pixels} (hs : s.seq = .idle) (hl : s.life = .opened) (hq : s.slot = .empty)
    (hp : pix.length = 12000) : s.Ends (.writeAsyncBegin pix) (s.beginSteps pix) := by
  obtain ⟨ha, e⟩ | ⟨ha, e⟩ := beginSteps_cases pix s
  · exact e ▸ .beginAccepted pix hs hl hq hp ha
  · exact e ▸ .beginRejected pix hs hl hq hp ha

theorem clearSteps_ends {s : State} (hs : s.seq = .idle) (hl : s.life = .opened) (hq : s.slot = .empty) :
    s.Ends .clear s.clearSteps := by
  cases htx : s.nextAnswers.tx with
  | returns k r => exact clearSteps_of_returns htx ▸ .clearReturns hs hl hq k r htx
  | stalls k => exact clearSteps_of_stalls htx ▸ .clearHangs hs hl hq k htx

theorem closeSteps_ends {s : State} (hs : s.seq = .idle) (hl : s.life = .opened) : s.Ends .close s.closeSteps := by
  cases hq : s.slot with
  | empty => exact closeSteps_of_empty hq ▸ .closeEmpty hs hl hq
  | inFlight => exact closeSteps_of_inFlight hq ▸ .closeInFlight hs hl hq
  | done => exact closeSteps_of_done hq ▸ .closeDone hs hl hq

theorem sendFrame_ends {s : State} {v : Bit} (hs : s.seq = .frameReady) (hcs : s.cs = .asserted)
    (hb : s.wfb.read 0 = commandByte 0x80#8 v) : s.Ends (.wireFrameMode v) s.sendFrame := by
  cases htx : s.nextAnswers.tx with
  | returns k r => exact sendFrame_of_returns htx ▸ .wireFrameReturns v hs hcs hb k r htx
  | stalls k => exact sendFrame_of_stalls htx ▸ .wireFrameHangs v hs hcs hb k htx

theorem sendClear_ends {s : State} {v : Bit} (hs : s.seq = .clearReady) (hcs : s.cs = .asserted) (hv : s.v = v) :
    s.Ends (.wireClear v) s.sendClear := by
  cases htx : s.nextAnswers.tx with
  | returns k r => exact sendClear_of_returns htx ▸ .wireClearReturns v hs hcs hv k r htx
  | stalls k => exact sendClear_of_stalls htx ▸ .wireClearHangs v hs hcs hv k htx

/-! ### Inversion -/

/-- The two rows that stand on the wire and not on the host port. -/
def onWire : Instr → Prop
  | .wireFrameMode _ | .wireClear _ => True
  | .init _ | .write _ | .writeAsyncBegin _ | .writeAsyncEnd | .clear | .close => False

/-- Everything an instruction can do when it answers a next state: a host command records a fault and changes nothing else;
the instruction ends in one of the ways of `State.Ends`; or WIRE_FRAME_MODE is the engine's first byte step. -/
theorem exec_next {i : Instr} {s t : State} (h : exec i s = .next t) :
    (¬ onWire i ∧ s.seq = .idle ∧ ∃ f, t = { s with fault := some f }) ∨ s.Ends i t ∨
    ((∃ v, i = .wireFrameMode v) ∧ s.seq = .idle ∧ s.slot = .inFlight ∧ s.txi = 0 ∧ t = s.engineByteStep) := by
  cases i with
  | init path =>
    obtain ⟨-, hs, ⟨f, rfl⟩ | ⟨hl, rfl⟩⟩ := execInit_next h
    · exact .inl ⟨id, hs, f, rfl⟩
    · exact .inr (.inl (initSteps_ends path hs hl))
  | write pix =>
    obtain ⟨-, hs, ⟨f, rfl⟩ | ⟨hl, hq, hp, rfl⟩⟩ := execWrite_next h
    · exact .inl ⟨id, hs, f, rfl⟩
    · exact .inr (.inl (writeSteps_ends hs hl hq hp))
  | writeAsyncBegin pix =>
    obtain ⟨-, hs, ⟨f, rfl⟩ | ⟨hl, hq, hp, rfl⟩⟩ := execWriteAsyncBegin_next h
    · exact .inl ⟨id, hs, f, rfl⟩
    · exact .inr (.inl (beginSteps_ends hs hl hq hp))
  | writeAsyncEnd =>
    obtain ⟨-, hs, ⟨f, rfl⟩ | ⟨hl, hq, rfl⟩⟩ := execWriteAsyncEnd_next h
    · exact .inl ⟨id, hs, f, rfl⟩
    · exact .inr (.inl (.endRetires hs hl hq))
  | clear =>
    obtain ⟨-, hs, ⟨f, rfl⟩ | ⟨hl, hq, rfl⟩⟩ := execClear_next h
    · exact .inl ⟨id, hs, f, rfl⟩
    · exact .inr (.inl (clearSteps_ends hs hl hq))
  | close =>
    obtain ⟨-, hs, ⟨f, rfl⟩ | ⟨hl, rfl⟩⟩ := execClose_next h
    · exact .inl ⟨id, hs, f, rfl⟩
    · exact .inr (.inl (closeSteps_ends hs hl))
  | wireFrameMode v =>
    obtain ⟨-, hcs, hb, ⟨hs, rfl⟩ | ⟨hs, hq, ht, rfl⟩⟩ := execWireFrameMode_next h
    · exact .inr (.inl (sendFrame_ends hs hcs hb))
    · exact .inr (.inr ⟨⟨v, rfl⟩, hs, hq, ht, rfl⟩)
  | wireClear v =>
    obtain ⟨-, hcs, hv, hs, rfl⟩ := execWireClear_next h
    exact .inr (.inl (sendClear_ends hs hcs hv))

/-- No instruction that runs past its checks touches `FAULT` or the agenda. -/
theorem State.Ends.fault_agenda {s t : State} {i : Instr} (h : s.Ends i t) : t.fault = s.fault ∧ t.agenda = s.agenda := by
  cases h <;> exact ⟨rfl, rfl⟩

/-- The packaging of an invariant of the block: a property that neither `FAULT` nor the agenda bears on, and that every end of
an instruction and both steps of the engine keep, is kept by every step of every agent. -/
theorem step_invariant {P : State → Prop} (hfree : ∀ {s : State} (q f), P s → P { s with agenda := q, fault := f })
    (hends : ∀ {s t : State} {i}, P s → s.Ends i t → P t)
    (hbyte : ∀ {s : State}, P s → s.slot = .inFlight → s.txi < 12482 → P s.engineByteStep)
    (hdone : ∀ {s : State}, P s → s.slot = .inFlight → P s.engineDoneStep)
    {s t : State} (hs : P s) (h : step s = .next t) : P t := by
  have htaken (rest : List Move) : P { s with agenda := rest } := hfree rest s.fault hs
  obtain ⟨-, rfl⟩ | ⟨m, rest, -, ⟨i, hi⟩ | ⟨-, -, rfl⟩ | ⟨-, -, -, hq, ht, rfl⟩ | ⟨-, -, -, hq, rfl⟩⟩ := step_next h
  · exact hs
  · obtain ⟨-, -, f, rfl⟩ | he | ⟨-, -, hq, ht, rfl⟩ := exec_next hi
    · exact hfree (s := s) rest (some f) hs
    · exact hends (htaken rest) he
    · exact hbyte (htaken rest) hq (by rw [ht]; decide)
  · exact hfree rest (some .reservedOpcode) hs
  · exact hbyte (htaken rest) hq ht
  · exact hdone (htaken rest) hq

end Sys2Proof.Machine
end

section
/-! PROOFS. The invariants of R38 with R24 (10_state.md): they hold at power-on and every step of every agent keeps them. A
state between steps is of one of four kinds: closed, open between commands with no transfer, open with one outstanding, or hung
inside a blocking transfer. The invariant is built once for each kind. -/

namespace Sys2Proof.Machine

section Kinds

variable {s t : State}

/-- The invariant reads neither `V`, the trace, `FAULT`, the responses nor the model's inputs. -/
theorem Inv.of_same (hi : Inv s) (hlife : t.life = s.life) (hwfb : t.wfb = s.wfb) (hslot : t.slot = s.slot)
    (htxi : t.txi = s.txi) (hcs : t.cs = s.cs) (hdisp : t.disp = s.disp) (hseq : t.seq = s.seq) : Inv t := by
  cases s
  cases t
  subst hlife hwfb hslot htxi hcs hdisp hseq
  exact ⟨hi.bufferWf, hi.outstanding, hi.released, hi.opened, hi.sentBound, hi.position⟩

/-- R38 (a): a closed block has no transfer outstanding. -/
theorem Inv.empty_of_closed (hi : Inv s) (hl : s.life = .closed) : s.slot = .empty := by
  by_contra hq
  have hopen := (hi.outstanding hq).1
  simp [hl] at hopen

/-- A closed block. -/
theorem Inv.of_closed (hm : t.wfb.wf) (ht : t.txi ≤ 12482) (hl : t.life = .closed) (hq : t.slot = .empty)
    (hs : t.seq = .idle) : Inv t where
  bufferWf := hm
  outstanding h := absurd hq h
  released h := by simp [hl] at h
  opened h := by simp [hl] at h
  sentBound := ht
  position := .inl hs

/-- An open block between commands with no transfer outstanding. -/
theorem Inv.of_ready (hm : t.wfb.wf) (ht : t.txi ≤ 12482) (ho : t.disp = .high ∧ t.wfb.DummiesZero) (hq : t.slot = .empty)
    (hcs : t.cs = .deasserted) (hs : t.seq = .idle) : Inv t where
  bufferWf := hm
  outstanding h := absurd hq h
  released _ _ _ := hcs
  opened _ := ho
  sentBound := ht
  position := .inl hs

/-- An open block with a transfer outstanding. -/
theorem Inv.of_outstanding (hm : t.wfb.wf) (ht : t.txi ≤ 12482) (ho : t.disp = .high ∧ t.wfb.DummiesZero)
    (hl : t.life = .opened) (hq : t.slot ≠ .empty) (hcs : t.cs = .asserted) (hs : t.seq = .idle) : Inv t where
  bufferWf := hm
  outstanding _ := ⟨hl, hcs, hs⟩
  released _ h := absurd h hq
  opened _ := ho
  sentBound := ht
  position := .inl hs

/-- A block hung inside a blocking transfer. -/
theorem Inv.of_hung (hm : t.wfb.wf) (ht : t.txi ≤ 12482) (ho : t.disp = .high ∧ t.wfb.DummiesZero)
    (hl : t.life = .opened) (hq : t.slot = .empty) (hcs : t.cs = .asserted) (hs : t.seq = .stalled) : Inv t where
  bufferWf := hm
  outstanding h := absurd hq h
  released _ _ h := by simp [hs] at h
  opened _ := ho
  sentBound := ht
  position := .inr ⟨hs, hl, hq, hcs⟩

/-- Between steps the sequencer stands at no transmit step, so no wire row runs a blocking transfer. -/
theorem Inv.not_at_transmit (hi : Inv s) : s.seq ≠ .frameReady ∧ s.seq ≠ .clearReady := by
  obtain h | ⟨h, -⟩ := hi.position <;> simp [h]

/-- A frame command keeps what an open block has of its display line and its dummy bytes. -/
theorem Inv.opened_framed (hi : Inv s) (hl : s.life = .opened) (pix : Pixels) :
    s.disp = .high ∧ (s.framed pix).DummiesZero :=
  ⟨(hi.opened hl).1, dummiesZero_framed hi.bufferWf (hi.opened hl).2 pix⟩

end Kinds

/-! ### Every step keeps the invariant -/

theorem Inv.of_ends {s t : State} {i : Instr} (hi : Inv s) (h : s.Ends i t) : Inv t := by
  have hm := hi.bufferWf
  have ht := hi.sentBound
  cases h with
  | initOpenFails path hs hl => exact .of_closed hm ht hl (hi.empty_of_closed hl) hs
  | initConfigureFails path hs hl => exact .of_closed hm ht hl (hi.empty_of_closed hl) hs
  | initClaimCsFails path hs hl => exact .of_closed Memory.wf_zeroed ht hl (hi.empty_of_closed hl) hs
  | initClaimDispFails path hs hl => exact .of_closed Memory.wf_zeroed ht hl (hi.empty_of_closed hl) hs
  | initSucceeds path hs hl =>
    exact .of_ready Memory.wf_zeroed ht ⟨rfl, Memory.dummiesZero_zeroed⟩ (hi.empty_of_closed hl) rfl hs
  | writeReturns pix hs hl hq =>
    exact .of_ready (wf_prepareFrame hm pix) ht (hi.opened_framed hl pix) hq rfl rfl
  | writeHangs pix hs hl hq =>
    exact .of_hung (wf_prepareFrame hm pix) ht (hi.opened_framed hl pix) hl hq rfl rfl
  | beginAccepted pix hs hl =>
    exact .of_outstanding (wf_prepareFrame hm pix) (Nat.zero_le _) (hi.opened_framed hl pix) hl nofun rfl hs
  | beginRejected pix hs hl hq =>
    exact .of_ready (wf_prepareFrame hm pix) ht (hi.opened_framed hl pix) hq rfl hs
  | endRetires hs hl => exact .of_ready hm ht (hi.opened hl) rfl rfl hs
  | clearReturns hs hl hq => exact .of_ready hm ht (hi.opened hl) hq rfl rfl
  | clearHangs hs hl hq => exact .of_hung hm ht (hi.opened hl) hl hq rfl rfl
  | closeEmpty hs => exact .of_closed hm ht rfl rfl hs
  | closeDone hs => exact .of_closed hm ht rfl rfl hs
  | closeInFlight hs => exact .of_closed hm ht rfl rfl hs
  | wireFrameReturns v hs => exact absurd hs hi.not_at_transmit.1
  | wireFrameHangs v hs => exact absurd hs hi.not_at_transmit.1
  | wireClearReturns v hs => exact absurd hs hi.not_at_transmit.2
  | wireClearHangs v hs => exact absurd hs hi.not_at_transmit.2

/-- A step of the engine leaves the transfer outstanding. -/
theorem Inv.of_engineByteStep {s : State} (hi : Inv s) (hq : s.slot = .inFlight) (ht : s.txi < 12482) :
    Inv s.engineByteStep := by
  have hout : s.slot ≠ .empty := by simp [hq]
  obtain ⟨hl, hcs, hs⟩ := hi.outstanding hout
  exact .of_outstanding hi.bufferWf ht (hi.opened hl) hl hout hcs hs

theorem Inv.of_engineDoneStep {s : State} (hi : Inv s) (hq : s.slot = .inFlight) : Inv s.engineDoneStep := by
  obtain ⟨hl, hcs, hs⟩ := hi.outstanding (by simp [hq])
  exact .of_outstanding hi.bufferWf hi.sentBound (hi.opened hl) hl nofun hcs hs

theorem Inv.of_step {s t : State} (hi : Inv s) (h : step s = .next t) : Inv t :=
  step_invariant (fun _ _ hi => hi.of_same rfl rfl rfl rfl rfl rfl rfl) Inv.of_ends Inv.of_engineByteStep
    Inv.of_engineDoneStep hi h

/-! ### The obligations -/

/-- Settles O49: every end of an instruction and both steps of the engine leave a state of one of the four kinds. -/
theorem stepKeepsTheInvariants : Obligations.StepKeepsTheInvariants := fun _ _ => Inv.of_step

/-- Settles O51: a frame command asks for an empty slot and INIT for a closed block, so neither runs past its checks while a
transfer is outstanding, and nothing else stores into the buffer. -/
theorem bufferStableWhileOutstanding : Obligations.BufferStableWhileOutstanding := by
  intro s t hi hq h
  have hl := (hi.outstanding hq).1
  obtain ⟨-, rfl⟩ | ⟨m, rest, -, ⟨i, hx⟩ | ⟨-, -, rfl⟩ | ⟨-, -, -, -, -, rfl⟩ | ⟨-, -, -, -, rfl⟩⟩ := step_next h
  · rfl
  · obtain hw | ⟨-, -, hclosed, -⟩ | ⟨pix, -, -, hempty, -⟩ := exec_wfb_cases hx
    · exact hw
    · simp [hl] at hclosed
    · exact absurd hempty hq
  · rfl
  · rfl
  · rfl

/-- Settles O48: the closed power-on state has no transfer, no bracket and no command yet. -/
theorem invariantsAtPowerOn : Obligations.InvariantsAtPowerOn := by
  refine ⟨.of_closed Memory.wf_nil (Nat.zero_le _) rfl rfl rfl, ⟨?_, nofun⟩, ⟨rfl, rfl⟩, rfl⟩
  exact ⟨{ phase := .free, closed := [] }, rfl, by simp, .inl ⟨rfl, nofun⟩⟩

end Sys2Proof.Machine
end

section
/-! PROOFS. The obligations about ENCODE as a whole and about the frames of WRITE (40_frame_encoder.md R116, R117;
42_transfer_state_machine.md R148): what ENCODE gives does not depend on the order of its stores or on an earlier frame, and
with the dummy bytes zero the buffer of a frame command is the format FRAME byte by byte. -/

namespace Sys2Proof.Machine

/-! ### ENCODE's stores in any order (R116) -/

/-- Stores to different addresses commute. -/
theorem Memory.write_comm {m : Memory} (hm : m.wf) {a a' : Nat} (ha : a < Config.buffSize) (ha' : a' < Config.buffSize)
    (hne : a ≠ a') (b b' : Byte) : (m.write a b).write a' b' = (m.write a' b').write a b := by
  have hw := Memory.wf_write hm ha b
  have hw' := Memory.wf_write hm ha' b'
  refine Memory.ext_read (Memory.wf_write hw ha' b') (Memory.wf_write hw' ha b) fun x => ?_
  rw [Memory.read_write hw.1, Memory.read_write hm.1, Memory.read_write hw'.1, Memory.read_write hm.1]
  by_cases hx : x = a
  · rw [if_neg (hx ▸ hne), if_pos hx, if_pos hx]
  · rw [if_neg hx, if_neg hx]

/-- Stores to pairwise different addresses of the buffer give the same buffer in whatever order they are made. -/
theorem Memory.foldl_write_perm {ss ss' : List Host.Cell} (hp : ss.Perm ss') (hd : ss.Pairwise fun c d => c.1 ≠ d.1)
    (hb : ∀ c ∈ ss, c.1 < Config.buffSize) {m : Memory} (hm : m.wf) :
    ss.foldl (fun x c => x.write c.1 c.2) m = ss'.foldl (fun x c => x.write c.1 c.2) m := by
  induction hp generalizing m with
  | nil => rfl
  | cons c hp ih =>
    exact ih hd.of_cons (fun d hd => hb d (List.mem_cons_of_mem _ hd)) (Memory.wf_write hm (hb c List.mem_cons_self) c.2)
  | swap c d ss =>
    have hne : d.1 ≠ c.1 := List.rel_of_pairwise_cons hd List.mem_cons_self
    simp only [List.foldl_cons]
    rw [Memory.write_comm hm (hb d (by simp)) (hb c (by simp)) hne]
  | trans hp _ ih ih' =>
    have hd' := (hp.pairwise_iff fun h => h.symm).mp hd
    exact (ih hd hb hm).trans (ih' hd' (fun c hc => hb c (hp.mem_iff.mpr hc)) hm)

/-- Each line of 50 pixel bytes has its address store and 50 data stores. -/
theorem length_encodeStoresFrom (n l : Nat) {pix : Pixels} (hp : pix.length = 50 * n) :
    (encodeStoresFrom n l pix).length = 51 * n := by
  induction n generalizing l pix with
  | zero => rfl
  | succ n ih =>
    have hrest : (pix.drop Config.lineBytes).length = 50 * n := by simp [hp]; omega
    have hline : (lineStores l (pix.take Config.lineBytes)).length = 51 := by simp [lineStores, hp]
    rw [encodeStoresFrom, List.length_append, hline, ih _ hrest]
    omega

/-! ### What ENCODE gives depends on the bytes it does not store to, and on no other (R115, R117) -/

theorem encodeInto_congr {m m' : Memory} (hm : m.wf) (hm' : m'.wf) {pix : Pixels} (hp : pix.length = 12000)
    (h : ∀ a, (∀ l < 240, a ≠ eaAdr l ∧ ∀ j < 50, a ≠ eaDst l j) → m.read a = m'.read a) :
    encodeInto pix m = encodeInto pix m' := by
  refine Memory.ext_read (wf_encodeInto hm pix) (wf_encodeInto hm' pix) fun a => ?_
  by_cases hadr : ∃ l < 240, a = eaAdr l
  · obtain ⟨l, hl, rfl⟩ := hadr
    rw [read_encodeInto_adr hm pix hl, read_encodeInto_adr hm' pix hl]
  by_cases hdst : ∃ l < 240, ∃ j < 50, a = eaDst l j
  · obtain ⟨l, hl, j, hj, rfl⟩ := hdst
    rw [read_encodeInto_dst hm hp hl hj, read_encodeInto_dst hm' hp hl hj]
  have hother : ∀ l < 240, a ≠ eaAdr l ∧ ∀ j < 50, a ≠ eaDst l j := fun l hl =>
    ⟨fun e => hadr ⟨l, hl, e⟩, fun j hj e => hdst ⟨l, hl, j, hj, e⟩⟩
  rw [read_encodeInto_other hm pix hother, read_encodeInto_other hm' pix hother, h a hother]

/-- R117 (b), (c): a later ENCODE leaves nothing of an earlier one. -/
theorem encodeInto_encodeInto {m : Memory} (hm : m.wf) {p : Pixels} (hp : p.length = 12000) (q : Pixels) :
    encodeInto p (encodeInto q m) = encodeInto p m :=
  encodeInto_congr (wf_encodeInto hm q) hm hp fun _ => read_encodeInto_other hm q

/-! ### The buffer of a frame command (R86, R132) -/

/-- R66: every address of the buffer is that of the mode byte, of a byte of a line record, or of the final byte. -/
theorem address_cases {a : Nat} (ha : a < 12482) :
    a = eaMode ∨ (∃ l < 240, a = eaAdr l) ∨ (∃ l < 240, ∃ j < 50, a = eaDst l j) ∨ (∃ l < 240, a = eaGap l) ∨
      a = eaFinal := by
  simp only [eaMode, eaAdr, eaDst, eaGap, eaFinal, Config.lineStride, Config.buffSize]
  by_cases hmode : a = 0
  · exact .inl hmode
  by_cases hfinal : a = 12481
  · exact .inr (.inr (.inr (.inr hfinal)))
  have hl : (a - 1) / 52 < 240 := by omega
  obtain hcol | hcol | hcol : (a - 1) % 52 = 0 ∨ (a - 1) % 52 = 51 ∨ (0 < (a - 1) % 52 ∧ (a - 1) % 52 < 51) := by omega
  · exact .inr (.inl ⟨_, hl, by omega⟩)
  · exact .inr (.inr (.inr (.inl ⟨_, hl, by omega⟩)))
  · exact .inr (.inr (.inl ⟨_, hl, (a - 1) % 52 - 1, by omega, by omega⟩))

theorem read_framed_mode {s : State} (hm : s.wfb.wf) (pix : Pixels) :
    (s.framed pix).read 0 = commandByte 0x80#8 (toggled s.v) := by
  have hw : (s.wfb.write 0 (commandByte 0x80#8 (toggled s.v))).wf := Memory.wf_write hm (by decide) _
  have hmode := read_encodeInto_mode hw pix
  rw [eaMode, Memory.read_write hm.1, if_pos rfl] at hmode
  exact hmode

/-- R86: with the dummy bytes zero, the buffer of a frame command holds the format FRAME at every address. -/
theorem read_framed {s : State} (hm : s.wfb.wf) (hd : s.wfb.DummiesZero) {pix : Pixels} (hp : pix.length = 12000) {a : Nat}
    (ha : a < 12482) : (s.framed pix).read a = frameByte (toggled s.v) pix a := by
  have hw : (s.wfb.write 0 (commandByte 0x80#8 (toggled s.v))).wf := Memory.wf_write hm (by decide) _
  have hdummies := dummiesZero_framed hm hd pix
  obtain rfl | ⟨l, hl, rfl⟩ | ⟨l, hl, j, hj, rfl⟩ | ⟨l, hl, rfl⟩ | rfl := address_cases ha
  · exact read_framed_mode hm pix
  · rw [frameByte_adr _ _ hl, framed_eq, read_encodeInto_adr hw pix hl]
  · rw [frameByte_dst _ _ hl hj, framed_eq, read_encodeInto_dst hw hp hl hj]
  · rw [frameByte_gap, hdummies.1 l hl]
  · rw [frameByte_final, hdummies.2]

/-- R86: the whole buffer in wire order is the frame of the pixels and the toggled `V`. -/
theorem frame_framed {s : State} (hm : s.wfb.wf) (hd : s.wfb.DummiesZero) {pix : Pixels} (hp : pix.length = 12000) :
    (s.framed pix).frame = frameOf (toggled s.v) pix := by
  rw [Memory.frame_eq_map_read (wf_prepareFrame hm pix), frameOf]
  exact List.map_congr_left fun a ha => read_framed hm hd hp (List.mem_range.mp ha)

/-- A buffer in canonical form is its 12,482 bytes. -/
theorem Memory.ext_frame {m m' : Memory} (hm : m.wf) (hm' : m'.wf) (h : m.frame = m'.frame) : m = m' := by
  refine Memory.ext_read hm hm' fun a => ?_
  by_cases ha : a < 12482
  · rw [Memory.frame_eq_map_read hm, Memory.frame_eq_map_read hm'] at h
    exact List.map_inj_left.mp h a (List.mem_range.mpr ha)
  · have habsent {x : Memory} (hx : x.wf) : ∀ c ∈ x, c.1 ≠ a := fun c hc e => ha (e ▸ (hx.2 c hc).2)
    rw [Memory.read_of_absent (habsent hm), Memory.read_of_absent (habsent hm')]

/-- WRITE reads the buffer it finds only to prepare the frame. -/
theorem writeSteps_congr {s : State} {m₁ m₂ : Memory} {pix : Pixels}
    (h : State.framed pix { s with wfb := m₁ } = State.framed pix { s with wfb := m₂ }) :
    State.writeSteps pix { s with wfb := m₁ } = State.writeSteps pix { s with wfb := m₂ } := by
  have hprepared : State.prepareFrame pix { s with wfb := m₁ } = State.prepareFrame pix { s with wfb := m₂ } := by
    simpa [prepareFrame_eq] using h
  rw [State.writeSteps, State.writeSteps, hprepared]

/-- The operand of a frame command reaches only the data bytes. -/
theorem read_framed_of_not_data {s : State} (hm : s.wfb.wf) (p q : Pixels) {a : Nat}
    (ha : ∀ l < 240, ∀ j < 50, a ≠ eaDst l j) : (s.framed p).read a = (s.framed q).read a := by
  have hw : (s.wfb.write 0 (commandByte 0x80#8 (toggled s.v))).wf := Memory.wf_write hm (by decide) _
  rw [framed_eq, framed_eq]
  by_cases hadr : ∃ l < 240, a = eaAdr l
  · obtain ⟨l, hl, rfl⟩ := hadr
    rw [read_encodeInto_adr hw p hl, read_encodeInto_adr hw q hl]
  · have hother : ∀ l < 240, a ≠ eaAdr l ∧ ∀ j < 50, a ≠ eaDst l j := fun l hl => ⟨fun e => hadr ⟨l, hl, e⟩, ha l hl⟩
    rw [read_encodeInto_other hw p hother, read_encodeInto_other hw q hother]

/-- Blanking hides which bytes went out and keeps how many. -/
theorem map_blankTx_tx (bs : List Byte) : (bs.map Event.tx).map blankTx = List.replicate bs.length (.tx 0x00#8) := by
  simp [blankTx, Function.comp_def, List.map_const']

/-- Two frames of the same number of bytes look alike once the bytes are blanked. -/
theorem map_blankTx_frame (m m' : Memory) (k : Nat) :
    ((m.frame.take k).map Event.tx).map blankTx = ((m'.frame.take k).map Event.tx).map blankTx := by
  rw [map_blankTx_tx, map_blankTx_tx, List.length_take, List.length_take, Memory.length_frame, Memory.length_frame]

/-! ### The obligations -/

/-- Settles O9: the stores go to different addresses, so their order does not matter, and in the order of the pseudocode they
are ENCODE. -/
theorem encodeIsItsStoresInAnyOrder : Obligations.EncodeIsItsStoresInAnyOrder := by
  intro m pix stores hm hp hperm
  have hbounds : ∀ c ∈ encodeStores pix, c.1 < Config.buffSize := fun c hc => by
    have := encodeStores_bounds hc
    simp only [Config.buffSize]
    omega
  have hdistinct : (encodeStores pix).Pairwise fun c d => c.1 ≠ d.1 := (rising_encodeStores pix).imp Nat.ne_of_lt
  refine ⟨hperm.length_eq.trans (length_encodeStoresFrom 240 0 hp), ?_⟩
  rw [← Memory.foldl_write_perm hperm.symm hdistinct hbounds hm, encodeInto,
    Memory.writeAll_eq_foldl (rising_encodeStores pix) hbounds hm]

/-- Settles O10: each part is a property of R117. -/
theorem encodeForgetsEarlierFrames : Obligations.EncodeForgetsEarlierFrames := by
  intro m p q hm hp _
  refine ⟨encodeInto_encodeInto hm hp p, encodeInto_encodeInto hm hp q, fun l hl j hj => ?_⟩
  rw [read_encodeInto_dst hm hp hl hj, dataByte, BitVec.not_not]
  rfl

/-- Settles O20: the buffer is the whole frame, and a transmit that reports the full length sends all of it. -/
theorem writeSendsTheWholeFrame : Obligations.WriteSendsTheWholeFrame := by
  intro s pix hr hl hq hm hd hp ⟨k, htx⟩
  have hframe := frame_framed hm hd hp
  have hsent : ((s.framed pix).frame.take (txSent 12482 (.returns k (12482 : Nat)))) = frameOf (toggled s.v) pix := by
    rw [txSent_full, hframe, List.take_of_length_le (length_frameOf _ _).le]
  refine ⟨_, (hostCommand_of_pixels hr hl hq (.inl rfl) hp).trans (congrArg _ (writeSteps_of_returns pix htx)), hr.noFault,
    rfl, hframe, ?_, rfl⟩
  simp only [hsent, List.append_assoc]
  rfl

/-- Settles O21: the two buffers prepared are the same frame, and the rest of the command reads nothing else of the buffer. -/
theorem writeIgnoresTheOldFrame : Obligations.WriteIgnoresTheOldFrame := by
  intro s m₁ m₂ pix hm₁ hm₂ hd₁ hd₂ hp hr hl hq
  have hframed : State.framed pix { s with wfb := m₁ } = State.framed pix { s with wfb := m₂ } :=
    Memory.ext_frame (wf_prepareFrame hm₁ pix) (wf_prepareFrame hm₂ pix)
      ((frame_framed hm₁ hd₁ hp).trans (frame_framed (s := { s with wfb := m₂ }) hm₂ hd₂ hp).symm)
  have hrun (m : Memory) : exec (.write pix) { s with wfb := m } = .next (State.writeSteps pix { s with wfb := m }) :=
    hostCommand_of_pixels ⟨hr.noFault, hr.between⟩ hl hq (.inl rfl) hp
  rw [hrun, hrun, writeSteps_congr hframed]

/-- Settles O22: the check does not read the operand, and past it the step lists differ in the buffer prepared. -/
theorem pixelsReachOnlyBufferAndBytes : Obligations.PixelsReachOnlyBufferAndBytes := by
  intro s t₁ t₂ p q hp hq h₁ h₂
  obtain ⟨-, -, ⟨f, hf, rfl⟩ | ⟨hlegal, e₁⟩⟩ := hostCommand_next h₁ <;>
    obtain ⟨-, -, ⟨g, hg, rfl⟩ | ⟨hlegal', e₂⟩⟩ := hostCommand_next h₂
  · cases hf.symm.trans hg
    exact ⟨rfl, rfl, fun _ => ⟨rfl, fun _ _ => rfl⟩⟩
  · cases hf.symm.trans hlegal'
  · cases hg.symm.trans hlegal
  · rw [withPixels_of_length hp] at e₁
    rw [withPixels_of_length hq] at e₂
    have hbuffer (hm : s.wfb.wf) : t₁.wfb.read 0 = t₂.wfb.read 0 ∧
        ∀ a, (∀ l < 240, ∀ j < 50, a ≠ eaDst l j) → t₁.wfb.read a = t₂.wfb.read a := by
      rw [e₁, e₂, State.writeSteps_wfb, State.writeSteps_wfb]
      exact ⟨(read_framed_mode hm p).trans (read_framed_mode hm q).symm, fun a => read_framed_of_not_data hm p q⟩
    cases htx : s.nextAnswers.tx with
    | returns k r =>
      rw [writeSteps_of_returns _ htx] at e₁ e₂
      subst e₁ e₂
      refine ⟨rfl, ?_, hbuffer⟩
      simp only [List.map_append, map_blankTx_frame (s.framed p) (s.framed q)]
    | stalls k =>
      rw [writeSteps_of_stalls _ htx] at e₁ e₂
      subst e₁ e₂
      refine ⟨rfl, ?_, hbuffer⟩
      simp only [List.map_append, map_blankTx_frame (s.framed p) (s.framed q)]

end Sys2Proof.Machine
end

section
/-! PROOFS. The bracket shape of the bus trace (42_transfer_state_machine.md R164, R158; 30_encoding.md R95). A reading of a
trace goes on from where it stands (`scanFrom`), so each run of events a step can append is read once; the invariant is built
once for each phase a trace between steps can end in. -/

namespace Sys2Proof.Machine

/-! ### Reading on from a phase -/

/-- The reading of further events from where a trace stands. -/
def scanFrom (sc : BusScan) (es : List Event) : Option BusScan := es.foldl (fun sc e => sc.bind (scanStep · e)) (some sc)

theorem scanTrace_append {es : List Event} {sc : BusScan} (h : scanTrace es = some sc) (fs : List Event) :
    scanTrace (es ++ fs) = scanFrom sc fs := by
  rw [scanTrace, List.foldl_append, ← scanTrace, h, scanFrom]

@[simp] theorem scanFrom_nil (sc : BusScan) : scanFrom sc [] = some sc := rfl

theorem scanFrom_cons {sc sc' : BusScan} {e : Event} (h : scanStep sc e = some sc') (es : List Event) :
    scanFrom sc (e :: es) = scanFrom sc' es := by
  rw [scanFrom, List.foldl_cons, Option.bind_some, h, scanFrom]

/-- Within an open bracket bytes add up. -/
theorem scanFrom_tx (bs new : List Byte) (cl : List (List Byte)) :
    scanFrom ⟨.sending bs, cl⟩ (new.map .tx) = some ⟨.sending (bs ++ new), cl⟩ := by
  induction new generalizing bs with
  | nil => simp
  | cons b new ih =>
    rw [List.map_cons, scanFrom_cons rfl, ih, List.append_assoc]
    rfl

section Brackets

variable {es : List Event} {bs : List Byte} {cl : List (List Byte)}

/-- R142: CS_ASSERT opens a bracket, and the bytes that follow stand in it. -/
theorem scanTrace_open (h : scanTrace es = some ⟨.free, cl⟩) (bs : List Byte) :
    scanTrace (es ++ [.csAssert, .wait 10] ++ bs.map .tx) = some ⟨.sending bs, cl⟩ := by
  have hopen : scanTrace (es ++ [.csAssert, .wait 10]) = some ⟨.sending [], cl⟩ := by rw [scanTrace_append h]; rfl
  rw [scanTrace_append hopen, scanFrom_tx, List.nil_append]

/-- R143: CS_DEASSERT closes the bracket. -/
theorem scanTrace_close (h : scanTrace es = some ⟨.sending bs, cl⟩) :
    scanTrace (es ++ [.wait 5, .csDeassert]) = some ⟨.free, cl ++ [bs]⟩ := by
  rw [scanTrace_append h]
  rfl

/-- R186: a cancelled transfer may go on sending, and may still signal; its bracket stays open. -/
theorem scanTrace_cancel (h : scanTrace es = some ⟨.sending bs, cl⟩) (new : List Byte) (late : Bool) :
    scanTrace (es ++ [.tCancel] ++ new.map .tx ++ (if late = true then [.sig Config.completionTag] else []) ++ [.tClose]) =
      some ⟨.sending (bs ++ new), cl⟩ := by
  have hcancel : scanTrace (es ++ [.tCancel]) = some ⟨.sending bs, cl⟩ := by rw [scanTrace_append h]; rfl
  have hsent : scanTrace (es ++ [.tCancel] ++ new.map .tx) = some ⟨.sending (bs ++ new), cl⟩ := by
    rw [scanTrace_append hcancel, scanFrom_tx]
  rw [List.append_assoc, scanTrace_append hsent]
  cases late <;> rfl

end Brackets

/-! ### First parts of a transfer (R95) -/

theorem transferPrefix_nil : TransferPrefix [] := .inr ⟨0#1, List.nil_prefix⟩

/-- Some first bytes of a frame. -/
theorem transferPrefix_frame {m : Memory} {bs : List Byte} (hm : ∃ v pix, pix.length = 12000 ∧ m.frame = frameOf v pix)
    (h : bs <+: m.frame) : TransferPrefix bs := by
  obtain ⟨v, pix, hp, hframe⟩ := hm
  exact .inl ⟨v, pix, hp, hframe ▸ h⟩

/-- Some first bytes of a clear. -/
theorem transferPrefix_clear (v : Bit) (k : Nat) : TransferPrefix ((clearSeq v).take k) := .inr ⟨v, List.take_prefix _ _⟩

/-- Two slices that meet are one. -/
theorem slice_append {m : Memory} (hm : m.wf) (a n k : Nat) : m.slice a n ++ m.slice (a + n) k = m.slice a (n + k) := by
  rw [Memory.slice_eq_map_read hm, Memory.slice_eq_map_read hm, Memory.slice_eq_map_read hm, ← List.map_append,
    List.range'_append_1]

/-- The bytes below an address of the buffer are a first part of it. -/
theorem slice_prefix_frame {m : Memory} (hm : m.wf) {n : Nat} (hn : n ≤ 12482) : m.slice 0 n <+: m.frame := by
  obtain ⟨k, hk⟩ := Nat.exists_eq_add_of_le hn
  rw [Memory.frame, Config.buffSize, hk, ← slice_append hm 0 n k]
  exact List.prefix_append _ _

/-! ### The phases a trace between steps ends in -/

section Phases

variable {s t : State}

/-- All brackets the trace has closed hold a first part of a transfer. -/
abbrev ClosedWell (cl : List (List Byte)) : Prop := ∀ bs ∈ cl, TransferPrefix bs

theorem ClosedWell.append {cl : List (List Byte)} (h : ClosedWell cl) {bs : List Byte} (hb : TransferPrefix bs) :
    ClosedWell (cl ++ [bs]) := by
  intro x hx
  obtain hx | hx := List.mem_append.mp hx
  · exact h x hx
  · exact List.mem_singleton.mp hx ▸ hb

/-- No bracket is open. -/
theorem BusInv.of_free {cl : List (List Byte)} (hscan : scanTrace t.trace = some ⟨.free, cl⟩) (hcl : ClosedWell cl)
    (hcs : t.cs ≠ .asserted) (hq : t.slot ≠ .inFlight) : BusInv t where
  shape := ⟨_, hscan, hcl, .inl ⟨rfl, hcs⟩⟩
  inFlight h := absurd h hq

/-- A bracket is open and no transfer is in flight. -/
theorem BusInv.of_sending {cl : List (List Byte)} {bs : List Byte} (hscan : scanTrace t.trace = some ⟨.sending bs, cl⟩)
    (hcl : ClosedWell cl) (hb : TransferPrefix bs) (hcs : t.cs = .asserted) (hq : t.slot ≠ .inFlight) : BusInv t where
  shape := ⟨_, hscan, hcl, .inr (.inl ⟨bs, rfl, hcs, hb, fun h => absurd h hq⟩)⟩
  inFlight h := absurd h hq

/-- A bracket is open and carries a transfer in flight. -/
theorem BusInv.of_inFlight {cl : List (List Byte)} (hm : t.wfb.wf) (ht : t.txi ≤ 12482)
    (hscan : scanTrace t.trace = some ⟨.sending (t.wfb.slice 0 t.txi), cl⟩) (hcl : ClosedWell cl)
    (hcs : t.cs = .asserted) (hframe : ∃ v pix, pix.length = 12000 ∧ t.wfb.frame = frameOf v pix) : BusInv t where
  shape := ⟨_, hscan, hcl,
    .inr (.inl ⟨_, rfl, hcs, transferPrefix_frame hframe (slice_prefix_frame hm ht), fun _ => rfl⟩)⟩
  inFlight _ := hframe

/-- A bracket that a CLOSE left open, and whose line a later INIT has claimed. -/
theorem BusInv.of_abandoned {cl : List (List Byte)} {bs : List Byte}
    (hscan : scanTrace t.trace = some ⟨.abandoned bs, cl⟩) (hcl : ClosedWell cl) (hb : TransferPrefix bs)
    (hcs : t.cs = .asserted) (hl : t.life = .closed) (hq : t.slot ≠ .inFlight) : BusInv t where
  shape := ⟨_, hscan, hcl, .inr (.inr ⟨bs, rfl, hcs, hb, hl⟩)⟩
  inFlight h := absurd h hq

/-- An open block with an empty slot has no bracket open between commands. -/
theorem BusInv.free_of_ready (hb : BusInv s) (hi : Inv s) (hs : s.seq = .idle) (hl : s.life = .opened)
    (hq : s.slot = .empty) : ∃ cl, scanTrace s.trace = some ⟨.free, cl⟩ ∧ ClosedWell cl := by
  have hcs := hi.released hl hq hs
  obtain ⟨⟨phase, cl⟩, hscan, hcl, ⟨rfl, -⟩ | ⟨bs, -, h, -⟩ | ⟨bs, -, h, -⟩⟩ := hb.shape
  · exact ⟨cl, hscan, hcl⟩
  · simp [hcs] at h
  · simp [hcs] at h

/-- An outstanding transfer has a bracket open. -/
theorem BusInv.sending_of_outstanding (hb : BusInv s) (hi : Inv s) (hq : s.slot ≠ .empty) :
    ∃ bs cl, scanTrace s.trace = some ⟨.sending bs, cl⟩ ∧ ClosedWell cl ∧ TransferPrefix bs ∧
      (s.slot = .inFlight → bs = s.wfb.slice 0 s.txi) := by
  obtain ⟨hl, hcs, -⟩ := hi.outstanding hq
  obtain ⟨⟨phase, cl⟩, hscan, hcl, ⟨-, h⟩ | ⟨bs, rfl, -, hp, hbytes⟩ | ⟨bs, -, -, -, h⟩⟩ := hb.shape
  · exact absurd hcs h
  · exact ⟨bs, cl, hscan, hcl, hp, hbytes⟩
  · simp [hl] at h

/-! ### INIT -/

/-- Events that neither the panel sees nor claim a line leave every phase as it is. -/
theorem scanStep_of_setup (sc : BusScan) {e : Event} (he : panelVisible e = false) (hc : ∀ pin, e ≠ .gClaim pin) :
    scanStep sc e = some sc := by
  obtain ⟨phase, cl⟩ := sc
  cases e with
  | gClaim pin => exact absurd rfl (hc pin)
  | tOpen _ | tConfig _ _ _ _ | tSubmit _ _ | sig _ | tCancel | tClose => cases phase <;> rfl
  | _ => simp [panelVisible] at he

/-- Setup events leave the invariant of a block with no transfer in flight as it is. -/
theorem BusInv.of_setup (hb : BusInv s) {es : List Event} (hes : ∀ e ∈ es, panelVisible e = false ∧ ∀ pin, e ≠ .gClaim pin)
    (htrace : t.trace = s.trace ++ es) (hcs : t.cs = s.cs) (hl : t.life = s.life) (hq : t.slot ≠ .inFlight) : BusInv t := by
  have hsetup (sc : BusScan) : scanFrom sc es = some sc := by
    clear htrace
    induction es with
    | nil => rfl
    | cons e es ih =>
      obtain ⟨he, hc⟩ := hes e List.mem_cons_self
      rw [scanFrom_cons (scanStep_of_setup sc he hc)]
      exact ih fun x hx => hes x (List.mem_cons_of_mem _ hx)
  obtain ⟨sc, hscan, hcl, hphase⟩ := hb.shape
  have hscan' : scanTrace t.trace = some sc := by rw [htrace, scanTrace_append hscan, hsetup]
  refine ⟨⟨sc, hscan', hcl, ?_⟩, fun h => absurd h hq⟩
  rw [hcs, hl]
  obtain h | ⟨bs, hsc, ha, hp, -⟩ | h := hphase
  · exact .inl h
  · exact .inr (.inl ⟨bs, hsc, ha, hp, fun h => absurd h hq⟩)
  · exact .inr (.inr h)

/-- R182 (e): from every phase a closed block can stand in, INIT's claim of the line leaves no bracket open, or one abandoned. -/
theorem BusInv.scan_claim (hb : BusInv s) (path : Path) :
    ∃ sc, scanTrace (s.trace ++ [.tOpen path, .tConfig 0 8 .msbFirst Config.spiClockHz, .gClaim Config.csPin]) = some sc ∧
      ClosedWell sc.closed ∧ ((sc.phase = .free ∧ s.cs ≠ .asserted) ∨
        ∃ bs, sc.phase = .abandoned bs ∧ s.cs = .asserted ∧ TransferPrefix bs) := by
  obtain ⟨⟨phase, cl⟩, hscan, hcl, ⟨rfl, hcs⟩ | ⟨bs, rfl, hcs, hp, -⟩ | ⟨bs, rfl, hcs, hp, -⟩⟩ := hb.shape <;>
    rw [scanTrace_append hscan]
  · exact ⟨⟨.free, cl⟩, rfl, hcl, .inl ⟨rfl, hcs⟩⟩
  · exact ⟨⟨.abandoned bs, cl⟩, rfl, hcl, .inr ⟨bs, rfl, hcs, hp⟩⟩
  · exact ⟨⟨.abandoned bs, cl⟩, rfl, hcl, .inr ⟨bs, rfl, hcs, hp⟩⟩

/-- R180: INIT then drives the line, which closes an abandoned bracket. -/
theorem BusInv.scan_release (hb : BusInv s) (path : Path) :
    ∃ cl, scanTrace (s.trace ++ [.tOpen path, .tConfig 0 8 .msbFirst Config.spiClockHz, .gClaim Config.csPin] ++
      [.csDeassert]) = some ⟨.free, cl⟩ ∧ ClosedWell cl := by
  obtain ⟨⟨phase, cl⟩, hscan, hcl, ⟨rfl, -⟩ | ⟨bs, rfl, -, hp⟩⟩ := hb.scan_claim path <;> rw [scanTrace_append hscan]
  · exact ⟨cl, rfl, hcl⟩
  · exact ⟨cl ++ [bs], rfl, ClosedWell.append hcl hp⟩

/-- What INIT appends after it has driven the line leaves no bracket open. -/
theorem BusInv.of_initialised (hb : BusInv s) (path : Path) {es : List Event}
    (hes : ∀ cl, scanFrom ⟨.free, cl⟩ es = some ⟨.free, cl⟩)
    (htrace : t.trace = s.trace ++ [.tOpen path, .tConfig 0 8 .msbFirst Config.spiClockHz, .gClaim Config.csPin] ++
      [.csDeassert] ++ es) (hcs : t.cs = .deasserted) (hq : t.slot = .empty) : BusInv t := by
  obtain ⟨cl, hscan, hcl⟩ := hb.scan_release path
  exact .of_free (by rw [htrace, scanTrace_append hscan, hes]) hcl (by simp [hcs]) (by simp [hq])

end Phases

/-! ### Every step keeps the shape -/

/-- A frame command of a block that meets the invariants prepares a whole frame. -/
theorem Inv.framed_whole {s : State} (hi : Inv s) (hl : s.life = .opened) {pix : Pixels} (hp : pix.length = 12000) :
    ∃ v q, q.length = 12000 ∧ (s.framed pix).frame = frameOf v q :=
  ⟨_, pix, hp, frame_framed hi.bufferWf (hi.opened hl).2 hp⟩

theorem BusInv.of_ends {s t : State} {i : Instr} (hb : BusInv s) (hi : Inv s) (h : s.Ends i t) : BusInv t := by
  cases h with
  | initOpenFails path hs hl =>
    exact hb.of_setup (by simp [panelVisible]) rfl rfl rfl (by simp [hi.empty_of_closed hl])
  | initConfigureFails path hs hl =>
    exact hb.of_setup (by simp [panelVisible]) rfl rfl rfl (by simp [hi.empty_of_closed hl])
  | initClaimCsFails path hs hl =>
    have hq : s.slot ≠ .inFlight := by simp [hi.empty_of_closed hl]
    obtain ⟨⟨phase, cl⟩, hscan, hcl, ⟨rfl, hcs⟩ | ⟨bs, rfl, hcs, hp⟩⟩ := hb.scan_claim path
    · exact .of_free hscan hcl hcs hq
    · exact .of_abandoned hscan hcl hp hcs hl hq
  | initClaimDispFails path hs hl =>
    exact hb.of_initialised path (fun _ => rfl) (by simp; rfl) rfl (hi.empty_of_closed hl)
  | initSucceeds path hs hl =>
    exact hb.of_initialised path (fun _ => rfl) (by simp; rfl) rfl (hi.empty_of_closed hl)
  | writeReturns pix hs hl hq hp k r =>
    obtain ⟨cl, hscan, hcl⟩ := hb.free_of_ready hi hs hl hq
    exact .of_free (scanTrace_close (scanTrace_open hscan _))
      (hcl.append (transferPrefix_frame (hi.framed_whole hl hp) (List.take_prefix _ _))) nofun (by simp [hq])
  | writeHangs pix hs hl hq hp k =>
    obtain ⟨cl, hscan, hcl⟩ := hb.free_of_ready hi hs hl hq
    exact .of_sending (scanTrace_open hscan _) hcl
      (transferPrefix_frame (hi.framed_whole hl hp) (List.take_prefix _ _)) rfl (by simp [hq])
  | beginAccepted pix hs hl hq hp =>
    obtain ⟨cl, hscan, hcl⟩ := hb.free_of_ready hi hs hl hq
    exact .of_inFlight (wf_prepareFrame hi.bufferWf pix) (Nat.zero_le _) (by rw [scanTrace_append hscan, slice_zero]; rfl)
      hcl rfl (hi.framed_whole hl hp)
  | beginRejected pix hs hl hq =>
    obtain ⟨cl, hscan, hcl⟩ := hb.free_of_ready hi hs hl hq
    exact .of_free (by rw [scanTrace_append hscan]; rfl) (hcl.append transferPrefix_nil) nofun (by simp [hq])
  | endRetires hs hl hq =>
    obtain ⟨bs, cl, hscan, hcl, hp, -⟩ := hb.sending_of_outstanding hi (by simp [hq])
    exact .of_free (scanTrace_close hscan) (hcl.append hp) nofun nofun
  | clearReturns hs hl hq k r =>
    obtain ⟨cl, hscan, hcl⟩ := hb.free_of_ready hi hs hl hq
    exact .of_free (scanTrace_close (scanTrace_open hscan _)) (hcl.append (transferPrefix_clear _ _)) nofun (by simp [hq])
  | clearHangs hs hl hq k =>
    obtain ⟨cl, hscan, hcl⟩ := hb.free_of_ready hi hs hl hq
    exact .of_sending (scanTrace_open hscan _) hcl (transferPrefix_clear _ _) rfl (by simp [hq])
  | closeEmpty hs hl hq =>
    obtain ⟨cl, hscan, hcl⟩ := hb.free_of_ready hi hs hl hq
    exact .of_free (by rw [scanTrace_append hscan]; rfl) hcl (by simp [hi.released hl hq hs]) nofun
  | closeDone hs hl hq =>
    have hout : s.slot ≠ .empty := by simp [hq]
    obtain ⟨bs, cl, hscan, hcl, hp, -⟩ := hb.sending_of_outstanding hi hout
    exact .of_sending (by rw [scanTrace_append hscan]; rfl) hcl hp (hi.outstanding hout).2.1 nofun
  | closeInFlight hs hl hq =>
    have hout : s.slot ≠ .empty := by simp [hq]
    obtain ⟨bs, cl, hscan, hcl, -, hbytes⟩ := hb.sending_of_outstanding hi hout
    have hsent : bs ++ s.wfb.slice s.txi (stopPoint s.txi s.nextAnswers.stopAt - s.txi) =
        s.wfb.slice 0 (stopPoint s.txi s.nextAnswers.stopAt) := by
      have hle := le_stopPoint s.txi s.nextAnswers.stopAt
      have hjoin := slice_append hi.bufferWf 0 s.txi (stopPoint s.txi s.nextAnswers.stopAt - s.txi)
      rw [Nat.zero_add, Nat.add_sub_cancel' hle] at hjoin
      rw [hbytes hq, hjoin]
    have hprefix := slice_prefix_frame hi.bufferWf (stopPoint_le hi.sentBound s.nextAnswers.stopAt)
    exact .of_sending (scanTrace_cancel hscan _ _) hcl (hsent ▸ transferPrefix_frame (hb.inFlight hq) hprefix)
      (hi.outstanding hout).2.1 nofun
  | wireFrameReturns v hs => exact absurd hs hi.not_at_transmit.1
  | wireFrameHangs v hs => exact absurd hs hi.not_at_transmit.1
  | wireClearReturns v hs => exact absurd hs hi.not_at_transmit.2
  | wireClearHangs v hs => exact absurd hs hi.not_at_transmit.2

/-- R156: the byte step adds the next byte of the buffer to the open bracket. -/
theorem BusInv.of_engineByteStep {s : State} (hb : BusInv s) (hi : Inv s) (hq : s.slot = .inFlight) (ht : s.txi < 12482) :
    BusInv s.engineByteStep := by
  have hout : s.slot ≠ .empty := by simp [hq]
  obtain ⟨bs, cl, hscan, hcl, -, hbytes⟩ := hb.sending_of_outstanding hi hout
  refine .of_inFlight hi.bufferWf ht ?_ hcl (hi.outstanding hout).2.1 (hb.inFlight hq)
  have hnext := slice_concat hi.bufferWf 0 s.txi
  rw [Nat.zero_add] at hnext
  rw [State.engineByteStep_trace, scanTrace_append hscan, State.engineByteStep_wfb, State.engineByteStep_txi, hnext, hbytes hq]
  rfl

/-- R157: the signal of completion leaves the bracket open. -/
theorem BusInv.of_engineDoneStep {s : State} (hb : BusInv s) (hi : Inv s) (hq : s.slot = .inFlight) :
    BusInv s.engineDoneStep := by
  have hout : s.slot ≠ .empty := by simp [hq]
  obtain ⟨bs, cl, hscan, hcl, hp, -⟩ := hb.sending_of_outstanding hi hout
  exact .of_sending (by rw [State.engineDoneStep_trace, scanTrace_append hscan]; rfl) hcl hp (hi.outstanding hout).2.1 nofun

/-! ### The obligation -/

/-- Settles O53: the shape is kept together with the invariants of R38, which say which phase a state can stand in. -/
theorem bracketShapeIsKept : Obligations.BracketShapeIsKept := by
  intro s t hi hb h
  have hkept : Inv t ∧ BusInv t := step_invariant (P := fun u => Inv u ∧ BusInv u)
    (fun _ _ ⟨hi, hb⟩ => ⟨hi.of_same rfl rfl rfl rfl rfl rfl rfl, hb.shape, hb.inFlight⟩)
    (fun ⟨hi, hb⟩ h => ⟨hi.of_ends h, hb.of_ends hi h⟩)
    (fun ⟨hi, hb⟩ hq ht => ⟨hi.of_engineByteStep hq ht, hb.of_engineByteStep hi hq ht⟩)
    (fun ⟨hi, hb⟩ hq => ⟨hi.of_engineDoneStep hq, hb.of_engineDoneStep hi hq⟩) ⟨hi, hb⟩ h
  exact hkept.2

end Sys2Proof.Machine
end

section
/-! PROOFS. The obligations about encodings: decoder and encoder (30_encoding.md R80 to R89, R94), bit reversal
(40_frame_encoder.md R111), the address bytes (R90), the bits on the wire (R58, R93), the command byte (R131) and the status
codes (R83). A bit of the wire stream is read as a bit of the byte it belongs to. -/

namespace Sys2Proof.Machine

/-! ### Decode and encode -/

/-- R87: a command byte is the pattern its row leaves unmasked, and its VCOM bit. -/
theorem masked_or_vcomBits (b : Byte) : (b &&& 0xBF#8) ||| vcomBits (wireVc b) = b := by
  revert b; decide

/-- R80: a host word is its two fields. -/
theorem cw_of_fields {cw : Byte} {k : Nat} (hk : k < 8) (hzero : (cwZero cw).toNat = 0) (hop : (cwOp cw).toNat = k) :
    cw = BitVec.ofNat 8 k := by
  rw [cwZero_toNat] at hzero
  rw [cwOp_toNat] at hop
  apply BitVec.eq_of_toNat_eq
  rw [BitVec.toNat_ofNat]
  omega

/-- R56: an operation without operand is decoded from a packet that brings none. -/
theorem decodeNoOperand_ok {cw : Byte} {operand : List Byte} {i j : Instr} (h : decodeNoOperand cw operand i = .ok j) :
    operand = [] ∧ i = j := by
  cases operand with
  | nil => exact ⟨rfl, Except.ok.inj h⟩
  | cons b operand => cases h

/-- A host packet that decodes is the encoding of what it decodes to. -/
theorem encode_of_decodeHost {cw : Byte} {operand : List Byte} {i : Instr} (h : decodeHost cw operand = .ok i) :
    encode i = .host cw operand := by
  rw [decodeHost] at h
  split at h
  case h_1 hzero hop | h_2 hzero hop | h_3 hzero hop =>
    cases h
    rw [cw_of_fields (by decide) hzero hop]
    rfl
  case h_4 hzero hop | h_5 hzero hop | h_6 hzero hop =>
    obtain ⟨rfl, rfl⟩ := decodeNoOperand_ok h
    rw [cw_of_fields (by decide) hzero hop]
    rfl
  case h_7 => cases h

/-- A byte of the wire that decodes is the encoding of what it decodes to. -/
theorem encode_of_decodeWire {b : Byte} {i : Instr} (h : decodeWire b = .ok i) : encode i = .wire b := by
  rw [decodeWire] at h
  split at h
  case isTrue hmode =>
    cases h
    rw [encode, ← hmode, masked_or_vcomBits]
  case isFalse =>
    split at h
    case isTrue hclear =>
      cases h
      rw [encode, ← hclear, masked_or_vcomBits]
    case isFalse => cases h

/-- The decoder gives back every well-formed instruction that was encoded. -/
theorem decode_encode (i : Instr) : Laws.RoundTrip.Statement i := by
  cases i with
  | init path => exact Laws.RoundTrip.init path
  | write pix => exact Laws.RoundTrip.write pix
  | writeAsyncBegin pix => exact Laws.RoundTrip.writeAsyncBegin pix
  | writeAsyncEnd => exact Laws.RoundTrip.writeAsyncEnd
  | clear => exact Laws.RoundTrip.clear
  | close => exact Laws.RoundTrip.close
  | wireFrameMode v => exact Laws.RoundTrip.wireFrameMode v
  | wireClear v => exact Laws.RoundTrip.wireClear v

/-! ### Bit reversal (R111) -/

/-- R111 (a). -/
theorem bitrev_bitrev (b : Byte) : bitrev (bitrev b) = b := by
  rw [bitrev_eq_rev8, bitrev_eq_rev8]
  refine BitVec.eq_of_getLsbD_eq fun i hi => ?_
  rw [getLsbD_rev8 _ hi, getLsbD_rev8 _ (by omega)]
  congr 1
  omega

/-- R111 (c): reversal commutes with every operation that works bit by bit, here of two bytes. -/
theorem bitrev_bitwise (op : Byte → Byte → Byte) (f : Bool → Bool → Bool)
    (hop : ∀ (a b : Byte) (i : Nat), i < 8 → (op a b).getLsbD i = f (a.getLsbD i) (b.getLsbD i)) (a b : Byte) :
    bitrev (op a b) = op (bitrev a) (bitrev b) := by
  simp only [bitrev_eq_rev8]
  refine BitVec.eq_of_getLsbD_eq fun i hi => ?_
  rw [getLsbD_rev8 _ hi, hop _ _ _ (by omega), hop _ _ _ hi, getLsbD_rev8 _ hi, getLsbD_rev8 _ hi]

/-- R112: complement is exclusive or with all ones, and all ones read the same backwards. -/
theorem bitrev_not (b : Byte) : bitrev (~~~b) = ~~~(bitrev b) := by
  have hxor (a : Byte) : ~~~a = a ^^^ 0xFF#8 := by rw [← BitVec.xor_allOnes]; rfl
  rw [hxor, hxor, bitrev_bitwise (· ^^^ ·) xor fun _ _ _ _ => BitVec.getLsbD_xor]
  rfl

/-! ### Bits on the wire (R58, R93) -/

@[simp] theorem length_wireStream (bs : List Byte) : (wireStream bs).length = 8 * bs.length := by
  induction bs with
  | nil => rfl
  | cons b bs ih =>
    rw [wireStream, List.flatMap_cons, List.length_append, ← wireStream, ih, List.length_cons]
    simp only [wireBits, List.length_cons, List.length_nil]
    omega

/-- R58: bit `i` of a byte on the wire is its bit `7 - i`. -/
theorem getElem?_wireBits (b : Byte) {i : Nat} (hi : i < 8) : (wireBits b)[i]? = some (b.getLsbD (7 - i)) := by
  interval_cases i <;> rfl

/-- R57, R58: the bits of byte `a` of a run of bytes stand at `8 * a` and after. -/
theorem getElem?_wireStream {bs : List Byte} {a : Nat} {b : Byte} (h : bs[a]? = some b) {i : Nat} (hi : i < 8) :
    (wireStream bs)[8 * a + i]? = some (b.getLsbD (7 - i)) := by
  induction bs generalizing a with
  | nil => simp at h
  | cons c bs ih =>
    rw [wireStream, List.flatMap_cons, ← wireStream]
    have hlen : (wireBits c).length = 8 := rfl
    cases a with
    | zero =>
      cases h
      rw [List.getElem?_append_left (by omega), Nat.mul_zero, Nat.zero_add, getElem?_wireBits _ hi]
    | succ a =>
      rw [List.getElem?_append_right (by omega), hlen, ← ih h]
      congr 1
      omega

/-- R90: an address byte goes out with the bits of the line number, bit 0 first. -/
theorem getLsbD_addressByte (l : Nat) {i : Nat} (hi : i < 8) :
    (bitrev (BitVec.ofNat 8 (l + 1))).getLsbD (7 - i) = (l + 1).testBit i := by
  rw [bitrev_eq_rev8, getLsbD_rev8 _ (by omega), BitVec.getLsbD_ofNat]
  have hback : 7 - (7 - i) = i := by omega
  simp [hback, hi]

/-- The values of the address bytes of `n` lines from line `l` on, added up. -/
def addressSum (l n : Nat) : Nat := ((List.range' l n).map fun k => (rev8 (BitVec.ofNat 8 (k + 1))).toNat).sum

theorem addressSum_add (l n k : Nat) : addressSum l (n + k) = addressSum l n + addressSum (l + n) k := by
  rw [addressSum, ← List.range'_append_1, List.map_append, List.sum_append, addressSum, addressSum]

/-- R90: the check figure, a quarter of the panel at a time. -/
theorem addressSum_all : ((List.range 240).map fun l => (addressByte l).toNat).sum = 30495 := by
  have hrev : ((List.range 240).map fun l => (addressByte l).toNat).sum = addressSum 0 240 := by
    simp only [addressSum, addressByte, bitrev_eq_rev8, List.range_eq_range']
  have h₀ : addressSum 0 60 = 7500 := by decide
  have h₁ : addressSum 60 60 = 7650 := by decide
  have h₂ : addressSum 120 60 = 7587 := by decide
  have h₃ : addressSum 180 60 = 7758 := by decide
  rw [hrev, addressSum_add 0 180 60, addressSum_add 0 120 60, addressSum_add 0 60 60, h₀, h₁, h₂, h₃]

/-- R87, R131: the bits of the mode byte. -/
theorem wireBits_modeByte (v : Bit) :
    wireBits (0x80#8 ||| (v.setWidth 8 <<< 6)) = [true, v.getLsbD 0, false, false, false, false, false, false] := by
  revert v; decide

/-- R89: the bits of a clear. -/
theorem wireStream_clearSeq (v : Bit) :
    wireStream (clearSeq v) = [false, v.getLsbD 0, true] ++ List.replicate 13 false := by
  revert v; decide

/-! ### The obligations -/

/-- Settles O1, per row of the opcode table in one direction and per branch of the decoder in the other. -/
theorem decodeAndEncodeAgree : Obligations.DecodeAndEncodeAgree := by
  refine ⟨decode_encode, fun p i h => ?_⟩
  cases p with
  | host cw operand => exact encode_of_decodeHost h
  | wire b => exact encode_of_decodeWire h

/-- Settles O3: each word is one line of the decoder. -/
theorem writtenOutWordsDecode : Obligations.WrittenOutWordsDecode :=
  ⟨rfl, rfl, rfl, rfl, rfl, rfl, rfl, rfl, rfl, rfl⟩

/-- Settles O4: a byte that decodes is the encoding of a wire row with one of the two VCOM bits. -/
theorem fourWireCommandBytes : Obligations.FourWireCommandBytes := by
  refine fun b => ⟨?_, fun h => ?_⟩
  · rintro ⟨i, h⟩
    have hb := encode_of_decodeWire h
    cases i with
    | wireFrameMode v =>
      cases hb
      clear h
      revert v; decide
    | wireClear v =>
      cases hb
      clear h
      revert v; decide
    | _ => cases hb
  · obtain rfl | rfl | rfl | rfl := h <;> exact ⟨_, rfl⟩

/-- Settles O7: the table is an involution that moves whole bits. -/
theorem bitReversalLaws : Obligations.BitReversalLaws := by
  have hfixed : ∀ b : Byte, bitrev b = b ↔ b ∈ [0x00#8, 0x18#8, 0x24#8, 0x3C#8, 0x42#8, 0x5A#8, 0x66#8, 0x7E#8, 0x81#8,
    0x99#8, 0xA5#8, 0xBD#8, 0xC3#8, 0xDB#8, 0xE7#8, 0xFF#8] := by decide
  exact ⟨bitrev_bitrev, Function.Involutive.bijective bitrev_bitrev,
    fun a b => ⟨bitrev_bitwise (· ||| ·) or (fun _ _ _ _ => BitVec.getLsbD_or) a b,
      bitrev_bitwise (· &&& ·) and (fun _ _ _ _ => BitVec.getLsbD_and) a b,
      bitrev_bitwise (· ^^^ ·) xor (fun _ _ _ _ => BitVec.getLsbD_xor) a b, bitrev_not b⟩,
    ⟨rfl, rfl, rfl, rfl⟩, hfixed⟩

/-- Settles O12. A byte that reverses to 0x00 is 0x00, and no line number of the panel is 0. -/
theorem addressBytesCheckFigure : Obligations.AddressBytesCheckFigure := by
  refine ⟨addressSum_all, fun l hl => ⟨rfl, fun h => ?_⟩, rfl, rfl⟩
  have hline : BitVec.ofNat 8 (l + 1) = 0x00#8 := by
    rw [← bitrev_bitrev (BitVec.ofNat 8 (l + 1))]
    exact congrArg bitrev h
  have hnat := congrArg BitVec.toNat hline
  simp at hnat
  omega

/-- Settles O13: the bits of each byte of the layout of a frame. -/
theorem wireBitStream : Obligations.WireBitStream := by
  intro v pix hp
  obtain ⟨hlen, hmode, hadr, hdst, hgap, hfinal⟩ := frameLayout v pix hp
  refine ⟨by rw [length_wireStream, hlen], ?_, fun l hl i hi => ?_, fun l hl j hj i hi => ?_, fun l hl i hi => ?_,
    fun i hi => ?_, wireStream_clearSeq v⟩
  · rw [frameOf, List.range_succ_eq_map, List.map_cons, wireStream, List.flatMap_cons]
    exact (List.take_left' rfl).trans (wireBits_modeByte v)
  · rw [getElem?_wireStream (hadr l hl) hi, getLsbD_addressByte l hi]
  · rw [getElem?_wireStream (hdst l hl j hj) hi, BitVec.getLsbD_not]
    simp
    omega
  · rw [getElem?_wireStream (hgap l hl) hi, BitVec.getLsbD_zero]
  · obtain hgap' | hfinal' : i < 8 ∨ 8 ≤ i := by omega
    · have hbit := getElem?_wireStream (hgap 239 (by decide)) hgap'
      rwa [BitVec.getLsbD_zero] at hbit
    · obtain ⟨j, rfl⟩ := Nat.exists_eq_add_of_le hfinal'
      have hbit := getElem?_wireStream hfinal (i := j) (by omega)
      rw [BitVec.getLsbD_zero] at hbit
      rwa [← Nat.add_assoc]

/-- Settles O14: the one bit has two values, and each gives its command bytes. -/
theorem vcomToggleAndCommandByte : Obligations.VcomToggleAndCommandByte := by
  refine ⟨fun s => ⟨rfl, fun h => ?_, fun h => ?_⟩, fun base => ⟨rfl, ?_⟩, fun _ _ => rfl, by decide, by decide⟩
  · rw [State.vcomToggle_v, h]
    rfl
  · rw [State.vcomToggle_v, h]
    rfl
  · exact BitVec.or_zero

/-- Settles O41. -/
theorem statusCodes : Obligations.StatusCodes := by
  refine ⟨rfl, rfl, rfl, rfl, fun st => ?_⟩
  cases st <;> decide

end Sys2Proof.Machine
end

section
/-! PROOFS. The obligations about single instructions: which step runs (10_state.md R27), what an instruction leaves alone
(R37, R63, R66), its faults and its status (60_exceptions.md R200 to R205, R210), and what runs at power-on (R241). Each is read
off the ways an instruction can end (`State.Ends`). -/

namespace Sys2Proof.Machine

/-! ### Inversion for host commands, and for commands that end without a fault -/

/-- A host command records a fault or ends. -/
theorem exec_host_next {i : Instr} {s t : State} (hi : ¬ onWire i) (h : exec i s = .next t) :
    (∃ f, t = { s with fault := some f }) ∨ s.Ends i t := by
  obtain ⟨-, -, hf⟩ | he | ⟨⟨v, rfl⟩, -⟩ := exec_next h
  · exact .inl hf
  · exact .inr he
  · exact absurd trivial hi

/-- A host command that answers a state without a fault ends. -/
theorem exec_host_ends {i : Instr} {s t : State} (hi : ¬ onWire i) (h : exec i s = .next t) (hf : t.fault = none) :
    s.Ends i t := by
  obtain ⟨f, rfl⟩ | he := exec_host_next hi h
  · cases hf
  · exact he

/-- Only the fault step leaves a fault, and it changes nothing else (R205). -/
theorem exec_faults {i : Instr} {s t : State} (h : exec i s = .next t) (hf : t.fault ≠ none) :
    ∃ f, t = { s with fault := some f } := by
  have hrunning := (exec_next_running h).1
  obtain ⟨-, -, hfault⟩ | he | ⟨-, -, -, -, rfl⟩ := exec_next h
  · exact hfault
  · exact absurd (he.fault_agenda.1.trans hrunning) hf
  · exact absurd hrunning hf

/-- R210: a hang returns no status. -/
theorem State.Ends.responses_of_hung {i : Instr} {s t : State} (h : s.Ends i t) (hs : s.seq ≠ .stalled)
    (ht : t.seq = .stalled) : t.responses = s.responses := by
  cases h with
  | writeHangs | clearHangs | wireFrameHangs | wireClearHangs => rfl
  | writeReturns | clearReturns | wireFrameReturns | wireClearReturns => cases ht
  | _ => exact absurd ht hs

/-- R141: in a closed block that is between commands no instruction but INIT runs past its checks. -/
theorem State.Ends.init_of_closed {i : Instr} {s t : State} (h : s.Ends i t) (hl : s.life = .closed) (hs : s.seq = .idle) :
    ∃ path, i = .init path := by
  cases h with
  | initOpenFails path | initConfigureFails path | initClaimCsFails path | initClaimDispFails path | initSucceeds path =>
    exact ⟨path, rfl⟩
  | wireFrameReturns _ hq | wireFrameHangs _ hq | wireClearReturns _ hq | wireClearHangs _ hq => cases hs.symm.trans hq
  | writeReturns _ _ ho | writeHangs _ _ ho | beginAccepted _ _ ho | beginRejected _ _ ho => cases hl.symm.trans ho
  | endRetires _ ho | clearReturns _ ho | clearHangs _ ho | closeEmpty _ ho | closeDone _ ho | closeInFlight _ ho =>
    cases hl.symm.trans ho

/-- R83, R149: the status of a WRITE that ends. -/
theorem writeStatus_cases (r : Int) : writeStatus r = .ok ∨ writeStatus r = .shortWriteError := by
  rw [writeStatus]
  split
  · exact .inl rfl
  · exact .inr rfl

/-- R66: a frame command stores to the mode byte and to what ENCODE stores to. -/
theorem read_framed_other {s : State} (hm : s.wfb.wf) (pix : Pixels) {a : Nat} (hmode : a ≠ eaMode)
    (ha : ∀ l < 240, a ≠ eaAdr l ∧ ∀ j < 50, a ≠ eaDst l j) : (s.framed pix).read a = s.wfb.read a := by
  have hzero : a ≠ 0 := hmode
  rw [framed_eq, read_encodeInto_other (Memory.wf_write hm (by decide) _) pix ha, Memory.read_write hm.1, if_neg hzero]

/-- The instructions that store into the buffer. -/
def storesToBuffer : Instr → Prop
  | .init _ | .write _ | .writeAsyncBegin _ => True
  | .writeAsyncEnd | .clear | .close | .wireFrameMode _ | .wireClear _ => False

/-- No other instruction changes the buffer. -/
theorem exec_wfb_of_not_stores {i : Instr} {s t : State} (hi : ¬ storesToBuffer i) (h : exec i s = .next t) :
    t.wfb = s.wfb := by
  obtain hw | ⟨path, rfl, -⟩ | ⟨pix, rfl | rfl, -⟩ := exec_wfb_cases h
  · exact hw
  · exact absurd trivial hi
  · exact absurd trivial hi
  · exact absurd trivial hi

/-- Every instruction but INIT stores a frame or nothing. -/
theorem exec_wfb_of_not_init {i : Instr} {s t : State} (hi : ∀ path, i ≠ .init path) (h : exec i s = .next t) :
    t.wfb = s.wfb ∨ ∃ pix, t.wfb = s.framed pix := by
  obtain hw | ⟨path, e, -⟩ | ⟨pix, -, -, -, -, hw⟩ := exec_wfb_cases h
  · exact .inl hw
  · exact absurd e (hi path)
  · exact .inr ⟨pix, hw⟩

/-- R210: nothing that is gated runs after a hang. -/
theorem whenRunning_of_stalled {s : State} (hf : s.fault = none) (hs : s.seq = .stalled)
    (k : Host.Outcome State Fault Refusal) : whenRunning s k = .fault .transferStalled := by
  simp [whenRunning, hf, hs]

/-! ### The obligations -/

/-- Settles O5: the four ways the first move of the agenda can stand. -/
theorem stepRunsTheNextMove : Obligations.StepRunsTheNextMove :=
  ⟨fun _ _ _ _ => step_of_decode, fun _ _ => runNext_cons, fun _ _ => runNext_cons, fun _ hr ha =>
    (runNext_idle ha).trans (whenRunning_of_running hr.noFault (by simp [hr.between]) _)⟩

/-- Settles O38. -/
theorem faultsChangeNothingElse : Obligations.FaultsChangeNothingElse := fun _ _ _ => exec_faults

/-- Settles O40: every step of every agent stands behind the gate that a hang closes. -/
theorem nothingRunsAfterAHang : Obligations.NothingRunsAfterAHang := by
  intro s hf hs
  obtain ⟨k, hk⟩ := step_gated s
  refine ⟨hk.trans (whenRunning_of_stalled hf hs k), fun i => ?_⟩
  obtain ⟨k, hk⟩ := exec_gated i s
  exact hk.trans (whenRunning_of_stalled hf hs k)

/-- Settles O15: each end of an instruction has its `V` in its next state. -/
theorem onlyToggleCommandsMoveV : Obligations.OnlyToggleCommandsMoveV := by
  intro s t
  refine ⟨fun pix h hf => ?write, fun pix h hf => ?begin, fun h hf => ?clear, fun i h hf => ?fault, fun path h => ?init,
    fun h => ?retire, fun h => ?close, fun v h => ?wireFrame, fun v h => ?wireClear⟩
  case write => cases exec_host_ends id h hf <;> rfl
  case begin => cases exec_host_ends id h hf <;> rfl
  case clear => cases exec_host_ends id h hf <;> rfl
  case fault =>
    obtain ⟨f, rfl⟩ := exec_faults h hf
    rfl
  case init =>
    obtain ⟨f, rfl⟩ | he := exec_host_next id h
    · rfl
    · cases he <;> rfl
  case retire =>
    obtain ⟨f, rfl⟩ | he := exec_host_next id h
    · rfl
    · cases he; rfl
  case close =>
    obtain ⟨f, rfl⟩ | he := exec_host_next id h
    · rfl
    · cases he <;> rfl
  case wireFrame =>
    obtain ⟨hw, -⟩ | he | ⟨-, -, -, -, rfl⟩ := exec_next h
    · exact absurd trivial hw
    · cases he <;> rfl
    · rfl
  case wireClear =>
    obtain ⟨hw, -⟩ | he | ⟨⟨w, hi⟩, -⟩ := exec_next h
    · exact absurd trivial hw
    · cases he <;> rfl
    · cases hi

/-- Settles O42: a fault and a hang add no status, and every end of a command adds the one its rule allows. -/
theorem oneStatusPerCommand : Obligations.OneStatusPerCommand := by
  intro s t
  refine ⟨fun i h hf => ?fault, fun i h hs => ?hang, fun path h hf => ?init, fun pix h hf hs => ?write,
    fun pix h hf => ?begin, fun h hf => ?retire, fun h hf hs => ?clear, fun h hf => ?close⟩
  case fault =>
    obtain ⟨f, rfl⟩ := exec_faults h hf
    rfl
  case hang =>
    obtain ⟨-, -, f, rfl⟩ | he | ⟨-, -, -, -, rfl⟩ := exec_next h
    · rfl
    · exact he.responses_of_hung (exec_next_running h).2 hs
    · rfl
  case init =>
    cases exec_host_ends id h hf with
    | initSucceeds => exact .inl rfl
    | _ => exact .inr rfl
  case write =>
    cases exec_host_ends id h hf with
    | writeReturns _ _ _ _ _ k r => exact (writeStatus_cases r).imp (by simp [·]) (by simp [·])
    | writeHangs => cases hs
  case begin =>
    cases exec_host_ends id h hf with
    | beginAccepted => exact .inl rfl
    | beginRejected => exact .inr rfl
  case retire => cases exec_host_ends id h hf; rfl
  case clear =>
    cases exec_host_ends id h hf with
    | clearReturns => rfl
    | clearHangs => cases hs
  case close => cases exec_host_ends id h hf <;> rfl

/-- Settles O43: the next state of each end of an instruction, and of a fault, holds the old value of what it does not write. -/
theorem accessTableFrame : Obligations.AccessTableFrame := by
  intro s t
  refine ⟨fun path h => ?init, fun pix h => ?write, fun pix h => ?begin, fun h => ?retire, fun h => ?clear, fun h => ?close,
    fun v h => ?wireFrame, fun v h => ?wireClear⟩
  case init =>
    obtain ⟨f, rfl⟩ | he := exec_host_next id h
    · exact ⟨rfl, rfl, rfl, rfl, rfl⟩
    · cases he <;> exact ⟨rfl, rfl, rfl, rfl, rfl⟩
  case write =>
    obtain ⟨f, rfl⟩ | he := exec_host_next id h
    · exact ⟨rfl, rfl, rfl, rfl, rfl⟩
    · cases he <;> exact ⟨rfl, rfl, rfl, rfl, rfl⟩
  case begin =>
    obtain ⟨f, rfl⟩ | he := exec_host_next id h
    · exact ⟨rfl, rfl, rfl, rfl⟩
    · cases he <;> exact ⟨rfl, rfl, rfl, rfl⟩
  case retire =>
    obtain ⟨f, rfl⟩ | he := exec_host_next id h
    · exact ⟨rfl, rfl, rfl, rfl, rfl, rfl, rfl, rfl, rfl⟩
    · cases he
      exact ⟨rfl, rfl, rfl, rfl, rfl, rfl, rfl, rfl, rfl⟩
  case clear =>
    obtain ⟨f, rfl⟩ | he := exec_host_next id h
    · exact ⟨rfl, rfl, rfl, rfl, rfl, rfl⟩
    · cases he <;> exact ⟨rfl, rfl, rfl, rfl, rfl, rfl⟩
  case close =>
    obtain ⟨f, rfl⟩ | he := exec_host_next id h
    · exact ⟨rfl, rfl, rfl, rfl, rfl, rfl, rfl⟩
    · cases he <;> exact ⟨rfl, rfl, rfl, rfl, rfl, rfl, rfl⟩
  case wireFrame =>
    obtain ⟨hw, -⟩ | he | ⟨-, -, -, -, rfl⟩ := exec_next h
    · exact absurd trivial hw
    · cases he <;> exact ⟨rfl, rfl, rfl, rfl, rfl, rfl, rfl⟩
    · exact ⟨rfl, rfl, rfl, rfl, rfl, rfl, rfl⟩
  case wireClear =>
    obtain ⟨hw, -⟩ | he | ⟨⟨w, hi⟩, -⟩ := exec_next h
    · exact absurd trivial hw
    · cases he <;> exact ⟨rfl, rfl, rfl, rfl, rfl, rfl, rfl, rfl⟩
    · cases hi

/-- Settles O44, from what an instruction can make of `WFB`. -/
theorem bufferStoresOfEachInstruction : Obligations.BufferStoresOfEachInstruction := by
  intro s t hm
  refine ⟨fun pix h a hmode ha => ?_, fun path h => ?_, fun h a => ?_⟩
  · have hcases : t.wfb = s.wfb ∨ ∃ q, t.wfb = s.framed q :=
      h.elim (exec_wfb_of_not_init fun _ => nofun) (exec_wfb_of_not_init fun _ => nofun)
    obtain hw | ⟨q, hw⟩ := hcases <;> rw [hw]
    exact read_framed_other hm q hmode ha
  · obtain hw | ⟨-, -, -, hw⟩ | ⟨q, hi | hi, -⟩ := exec_wfb_cases h
    · exact .inl fun a => by rw [hw]
    · exact .inr fun a => by rw [hw, Memory.read_zeroed]
    · cases hi
    · cases hi
  · have hw : t.wfb = s.wfb := by
      obtain h | h | h | ⟨v, h⟩ | ⟨v, h⟩ := h <;>
        exact exec_wfb_of_not_stores id h
    rw [hw]

/-- Settles O47: the power-on state is closed and between commands. -/
theorem onlyInitRunsAtPowerOn : Obligations.OnlyInitRunsAtPowerOn := by
  intro wfb v i
  constructor
  · rintro ⟨t, h, hf⟩
    obtain ⟨-, -, f, rfl⟩ | he | ⟨-, -, hq, -⟩ := exec_next h
    · cases hf
    · exact he.init_of_closed rfl rfl
    · cases hq
  · rintro ⟨path, rfl⟩
    exact ((legalityTable (State.powerOn v wfb) path [] ⟨rfl, rfl⟩).1 rfl).1

end Sys2Proof.Machine
end

section
/-! PROOFS. The obligations that tie the state to the trace (10_state.md R29 to R31, 41_vcom_sequencer.md R133) and the slot to
the bytes sent (R38 (d)). Lines and `V` are read off the trace event by event; the bytes of a transfer and its signal move
neither. -/

namespace Sys2Proof.Machine

/-! ### Readings that the bytes of a transfer do not move -/

section Readings

variable {α : Type} {f : α → Event → α}

/-- A reading of the trace that passes over bytes and signals. -/
def PassesTransfer (f : α → Event → α) : Prop := (∀ a b, f a (.tx b) = a) ∧ ∀ a tag, f a (.sig tag) = a

theorem PassesTransfer.foldl_tx (hf : PassesTransfer f) (a : α) (bs : List Byte) : (bs.map Event.tx).foldl f a = a := by
  induction bs with
  | nil => rfl
  | cons b bs ih => rw [List.map_cons, List.foldl_cons, hf.1, ih]

theorem PassesTransfer.foldl_signal (hf : PassesTransfer f) (a : α) (late : Bool) :
    (if late = true then [Event.sig Config.completionTag] else []).foldl f a = a := by
  cases late with
  | false => rfl
  | true => exact hf.2 a _

theorem passesTransfer_csAfter : PassesTransfer csAfter := ⟨fun _ _ => rfl, fun _ _ => rfl⟩

theorem passesTransfer_dispAfter : PassesTransfer dispAfter := ⟨fun _ _ => rfl, fun _ _ => rfl⟩

/-- The toggles of `V` as a reading of the trace (R133). -/
def vcomAfter (v : Bit) : Event → Bit
  | .csAssert => toggled v
  | _ => v

theorem passesTransfer_vcomAfter : PassesTransfer vcomAfter := ⟨fun _ _ => rfl, fun _ _ => rfl⟩

end Readings

/-- R133: one more bracket is one more toggle. -/
theorem vAfter_succ (n : Nat) : vAfter (n + 1) = toggled (vAfter n) := by
  have hone : (BitVec.ofNat 1 (n + 1)) = BitVec.ofNat 1 n ^^^ 1#1 := by
    apply BitVec.eq_of_toNat_eq
    rw [BitVec.toNat_ofNat, BitVec.toNat_xor, BitVec.toNat_ofNat]
    obtain h | h : n % 2 = 0 ∨ n % 2 = 1 := by omega
    all_goals
      have hsucc : (n + 1) % 2 = 1 - n % 2 := by omega
      simp [h, hsucc]
  rw [vAfter, vAfter, toggled, hone, BitVec.xor_assoc]

/-- R133: the toggles counted are the toggles made. -/
theorem vAfter_assertCount_append (es fs : List Event) :
    vAfter (assertCount (es ++ fs)) = fs.foldl vcomAfter (vAfter (assertCount es)) := by
  induction fs generalizing es with
  | nil => simp
  | cons e fs ih =>
    have hone : vAfter (assertCount (es ++ [e])) = vcomAfter (vAfter (assertCount es)) e := by
      rw [assertCount, List.count_append]
      cases e with
      | csAssert => exact vAfter_succ _
      | _ => rfl
    rw [List.foldl_cons, ← hone, ← ih, List.append_assoc, List.singleton_append]

/-! ### What every end of an instruction appends -/

theorem State.Ends.trace_prefix {s t : State} {i : Instr} (h : s.Ends i t) : s.trace <+: t.trace := by
  cases h <;> simp only [List.append_assoc, List.prefix_append]

/-- R29, R30: each end of an instruction leaves the lines as the events it appends drive them. -/
theorem LinesFollowTrace.of_ends {s t : State} {i : Instr} (hs : LinesFollowTrace s) (h : s.Ends i t) :
    LinesFollowTrace t := by
  obtain ⟨hcs, hdisp⟩ := hs
  rw [csOf] at hcs
  rw [dispOf] at hdisp
  cases h <;>
    simp [LinesFollowTrace, csOf, dispOf, hcs, hdisp, csAfter, dispAfter, passesTransfer_csAfter.foldl_tx,
      passesTransfer_csAfter.foldl_signal, passesTransfer_dispAfter.foldl_tx, passesTransfer_dispAfter.foldl_signal,
      -List.map_take]

/-- R133: each end of an instruction toggles `V` once for each bracket it opens. -/
theorem VcomFollowsTrace.of_ends {s t : State} {i : Instr} (hs : VcomFollowsTrace s) (h : s.Ends i t) :
    VcomFollowsTrace t := by
  rw [VcomFollowsTrace] at hs
  cases h <;>
    simp [VcomFollowsTrace, vAfter_assertCount_append, ← hs, vcomAfter, passesTransfer_vcomAfter.foldl_tx,
      passesTransfer_vcomAfter.foldl_signal, -List.map_take]

/-- An event that drives neither line leaves both as the trace drove them. -/
theorem LinesFollowTrace.of_append {s t : State} (hs : LinesFollowTrace s) {e : Event} (htrace : t.trace = s.trace ++ [e])
    (hcs : t.cs = csAfter s.cs e) (hdisp : t.disp = dispAfter s.disp e) : LinesFollowTrace t := by
  obtain ⟨hc, hd⟩ := hs
  rw [csOf] at hc
  rw [dispOf] at hd
  simp [LinesFollowTrace, csOf, dispOf, htrace, hcs, hdisp, hc, hd]

/-- One event toggles `V` where it opens a bracket. -/
theorem VcomFollowsTrace.of_append {s t : State} (hs : VcomFollowsTrace s) {e : Event} (htrace : t.trace = s.trace ++ [e])
    (hv : t.v = vcomAfter s.v e) : VcomFollowsTrace t := by
  rw [VcomFollowsTrace] at hs
  rw [VcomFollowsTrace, htrace, vAfter_assertCount_append, ← hs, hv, List.foldl_cons, List.foldl_nil]

/-- No end of an instruction completes a transfer, nor counts bytes of one that is completed. -/
theorem State.Ends.done_before {s t : State} {i : Instr} (h : s.Ends i t) (hd : t.slot = .done) :
    s.slot = .done ∧ t.txi = s.txi := by
  cases h with
  | beginAccepted | endRetires | closeEmpty | closeDone | closeInFlight => cases hd
  | _ => exact ⟨hd, rfl⟩

/-! ### The obligations -/

/-- Settles O45: every step appends to the trace or leaves it. -/
theorem traceIsAppendOnly : Obligations.TraceIsAppendOnly := by
  intro s t h
  exact step_invariant (P := fun u => s.trace <+: u.trace) (fun _ _ hu => hu) (fun hu he => hu.trans he.trace_prefix)
    (fun hu _ _ => hu.trans (List.prefix_append _ _)) (fun hu _ => hu.trans (List.prefix_append _ _)) List.prefix_rfl h

/-- Settles O52. -/
theorem linesStandAsTraced : Obligations.LinesStandAsTraced := fun _ _ hs h =>
  step_invariant (fun _ _ hs => hs) LinesFollowTrace.of_ends (fun hs _ _ => hs.of_append rfl rfl rfl)
    (fun hs _ => hs.of_append rfl rfl rfl) hs h

/-- Settles O16. -/
theorem vcomAlternatesWithBrackets : Obligations.VcomAlternatesWithBrackets := fun _ _ hs h =>
  step_invariant (fun _ _ hs => hs) VcomFollowsTrace.of_ends (fun hs _ _ => hs.of_append rfl rfl)
    (fun hs _ => hs.of_append rfl rfl) hs h

/-- Settles O54: the slot becomes `Done` by the completion step alone. -/
theorem reliableCompletionSentAll : Obligations.ReliableCompletionSentAll := by
  intro s t hs hcomplete h hd
  obtain ⟨-, rfl⟩ | ⟨m, rest, ha, ⟨i, hi⟩ | ⟨-, -, rfl⟩ | ⟨-, -, -, hq, -, rfl⟩ | ⟨rfl, hf, hidle, hq, rfl⟩⟩ := step_next h
  · exact hs hd
  · obtain ⟨-, -, f, rfl⟩ | he | ⟨-, -, hq, -, rfl⟩ := exec_next hi
    · exact hs hd
    · obtain ⟨hdone, htxi⟩ := he.done_before hd
      exact htxi.trans (hs hdone)
    · cases hd.symm.trans hq
  · exact hs hd
  · cases hd.symm.trans hq
  · exact hcomplete ⟨⟨hf, hidle⟩, hq, rest, ha⟩

end Sys2Proof.Machine
end

section
/-! PROOFS. The obligations about transfers as a whole (42_transfer_state_machine.md): the blocking transmit (R145), the failed
submission (R153), the run of the engine (R159), the asynchronous path against WRITE (R165), an effective cancel (R186), and
the wire rows (log entry 7). -/

namespace Sys2Proof.Machine

/-! ### The run of the engine (R159) -/

/-- Two runs, one after the other. -/
theorem State.Reaches.trans {s t u : State} {n k : Nat} (h : s.Reaches n t) (h' : t.Reaches k u) : s.Reaches (n + k) u := by
  induction n generalizing s with
  | zero =>
    cases State.reaches_zero.mp h
    rwa [Nat.zero_add]
  | succ n ih =>
    obtain ⟨w, hw, h⟩ := State.reaches_succ.mp h
    rw [Nat.add_right_comm]
    exact State.reaches_succ.mpr ⟨w, hw, ih h⟩

/-- A run of one step. -/
theorem State.reaches_one {s t : State} : s.Reaches 1 t ↔ step s = .next t := by
  rw [State.reaches_succ]
  simp

/-- A packet of an instruction runs that instruction. -/
theorem step_encode {s : State} {i : Instr} {rest : List Move} (hi : i.wellFormed = true)
    (ha : s.agenda = .cmd (encode i) :: rest) : step s = exec i { s with agenda := rest } :=
  step_of_decode ha (decode_encode i hi)

/-- The byte steps of the engine, one after another: the bytes of the buffer from `TXI` on go out in order. -/
theorem reaches_engineBytes (n : Nat) {s : State} {rest : List Move} (hr : s.Ready) (hq : s.slot = .inFlight)
    (hm : s.wfb.wf) (ht : s.txi + n ≤ 12482) (ha : s.agenda = List.replicate n .engineByte ++ rest) :
    s.Reaches n { s with txi := s.txi + n, trace := s.trace ++ (s.wfb.slice s.txi n).map .tx, agenda := rest } := by
  induction n generalizing s with
  | zero =>
    rw [State.reaches_zero, slice_zero, List.map_nil, List.append_nil]
    subst ha
    rfl
  | succ n ih =>
    rw [List.replicate_succ, List.cons_append] at ha
    have hlt : s.txi < 12482 := by omega
    have hstep : step s = .next ({ s with agenda := List.replicate n .engineByte ++ rest } : State).engineByteStep :=
      (runNext_cons ha).trans (engineByteMove_of_enabled ⟨hr.noFault, hr.between⟩ hq hlt)
    have hrest := ih (s := ({ s with agenda := List.replicate n .engineByte ++ rest } : State).engineByteStep)
      ⟨hr.noFault, hr.between⟩ hq hm ((Nat.add_right_comm _ _ _).trans_le ht) rfl
    refine State.reaches_succ.mpr ⟨_, hstep, ?_⟩
    rw [slice_succ hm]
    simpa [State.engineByteStep, State.emit, Nat.add_comm, Nat.add_left_comm] using hrest

/-- The byte steps that are left and the completion step. -/
theorem reaches_done {s : State} {rest : List Move} (hr : s.Ready) (hq : s.slot = .inFlight) (hm : s.wfb.wf)
    (ht : s.txi ≤ 12482) (ha : s.agenda = List.replicate (12482 - s.txi) .engineByte ++ .engineDone :: rest) :
    s.Reaches (12482 - s.txi + 1)
      { s with
        slot := .done
        txi := 12482
        trace := s.trace ++ (s.wfb.slice s.txi (12482 - s.txi)).map .tx ++ [.sig Config.completionTag]
        agenda := rest } := by
  have hbytes := reaches_engineBytes (12482 - s.txi) hr hq hm (by omega) ha
  rw [Nat.add_sub_cancel' ht] at hbytes
  refine hbytes.trans (State.reaches_one.mpr ((runNext_cons rfl).trans ?_))
  exact engineDoneMove_of_inFlight ⟨hr.noFault, hr.between⟩ hq

/-! ### The asynchronous path (R165) -/

/-- The panel sees a whole frame and its bracket, and neither the submission nor the signal. -/
theorem panelTrace_async (es bs : List Event) (hbs : panelTrace bs = bs) :
    panelTrace (es ++ [.csAssert, .wait 10, .tSubmit 12482 Config.completionTag] ++ bs ++ [.sig Config.completionTag] ++
      [.wait 5, .csDeassert]) = panelTrace (es ++ [.csAssert, .wait 10] ++ bs ++ [.wait 5, .csDeassert]) := by
  rw [panelTrace] at hbs
  simp [panelTrace, List.filter_cons, panelVisible, hbs]

theorem panelTrace_tx (bs : List Byte) : panelTrace (bs.map .tx) = bs.map .tx := by
  rw [panelTrace, List.filter_eq_self]
  simp [panelVisible]

/-- R152: the step of an accepted submission. -/
theorem step_asyncBegin {s : State} {pix : Pixels} {rest : List Move} (hr : s.Ready) (hl : s.life = .opened)
    (hq : s.slot = .empty) (hp : pix.length = 12000) (hacc : s.nextAnswers.accepted = true)
    (ha : s.agenda = .cmd (encode (.writeAsyncBegin pix)) :: rest) :
    step s = .next
      { s with
        v := toggled s.v
        wfb := s.framed pix
        slot := .inFlight
        txi := 0
        cs := .asserted
        trace := s.trace ++ [.csAssert, .wait 10, .tSubmit 12482 Config.completionTag]
        responses := s.responses ++ [.ok]
        agenda := rest
        answers := s.answers.tail
        draws := s.draws + 1 } := by
  obtain ⟨-, -, hlegal⟩ := asyncBeginResult { s with agenda := rest } pix ⟨hr.noFault, hr.between⟩
  obtain ⟨-, haccepted, -⟩ := hlegal hl hq
  exact (step_encode ((Instr.wellFormed_writeAsyncBegin pix).mpr hp) ha).trans (haccepted hp hacc)

/-- R148: the step of a WRITE whose transmit reports the full length. -/
theorem step_write {s : State} {pix : Pixels} {rest : List Move} (hr : s.Ready) (hl : s.life = .opened) (hq : s.slot = .empty)
    (hp : pix.length = 12000) (htx : txReliable 12482 s.nextAnswers.tx) (ha : s.agenda = .cmd (encode (.write pix)) :: rest) :
    step s = .next
      { s with
        v := toggled s.v
        wfb := s.framed pix
        cs := .deasserted
        trace := s.trace ++ [.csAssert, .wait 10] ++ (s.framed pix).frame.map .tx ++ [.wait 5, .csDeassert]
        responses := s.responses ++ [.ok]
        agenda := rest
        answers := s.answers.tail
        draws := s.draws + 1 } := by
  obtain ⟨k, htx⟩ := htx
  obtain ⟨-, -, hlegal⟩ := writeResult { s with agenda := rest } pix ⟨hr.noFault, hr.between⟩
  obtain ⟨-, hreturns, -⟩ := hlegal hl hq
  have hall : (s.framed pix).frame.take (txSent 12482 (.returns k (12482 : Nat))) = (s.framed pix).frame := by
    rw [txSent_full, List.take_of_length_le (Memory.length_frame _).le]
  rw [← hall]
  exact (step_encode ((Instr.wellFormed_write pix).mpr hp) ha).trans (hreturns hp k _ htx)

/-- R160: the step that retires a completed transfer. -/
theorem step_asyncEnd {s : State} {rest : List Move} (hr : s.Ready) (hl : s.life = .opened) (hq : s.slot = .done)
    (ha : s.agenda = .cmd (encode .writeAsyncEnd) :: rest) :
    step s = .next
      { s with
        slot := .empty
        cs := .deasserted
        trace := s.trace ++ [.wait 5, .csDeassert]
        responses := s.responses ++ [.ok]
        agenda := rest } := by
  obtain ⟨-, -, -, hdone⟩ := asyncEndResult { s with agenda := rest } ⟨hr.noFault, hr.between⟩
  exact (step_encode rfl ha).trans (hdone hl hq)

/-- From a ready, open, empty state the whole asynchronous sequence, with its last state. -/
theorem reaches_asyncPath {s : State} {pix : Pixels} (hr : s.Ready) (hl : s.life = .opened) (hq : s.slot = .empty)
    (hm : s.wfb.wf) (hp : pix.length = 12000) (hacc : s.nextAnswers.accepted = true)
    (ha : s.agenda = .cmd (encode (.writeAsyncBegin pix)) :: (List.replicate 12482 .engineByte ++
      [.engineDone, .cmd (encode .writeAsyncEnd)])) :
    s.Reaches (1 + (12482 + 1) + 1)
      { s with
        v := toggled s.v
        wfb := s.framed pix
        slot := .empty
        txi := 12482
        cs := .deasserted
        trace := s.trace ++ [.csAssert, .wait 10, .tSubmit 12482 Config.completionTag] ++ ((s.framed pix).frame).map .tx ++
          [.sig Config.completionTag] ++ [.wait 5, .csDeassert]
        responses := s.responses ++ [.ok] ++ [.ok]
        agenda := []
        answers := s.answers.tail
        draws := s.draws + 1 } := by
  exact ((State.reaches_one.mpr (step_asyncBegin hr hl hq hp hacc ha)).trans
    (reaches_done ⟨hr.noFault, hr.between⟩ rfl (wf_prepareFrame hm pix) (Nat.zero_le _) rfl)).trans
    (State.reaches_one.mpr (step_asyncEnd ⟨hr.noFault, hr.between⟩ hl rfl rfl))

/-! ### The wire rows (log entry 7) -/

/-- WIRE_FRAME_MODE at WRITE's transmit step. -/
theorem execWireFrameMode_of_frameReady {s : State} {v : Bit} (hf : s.fault = none) (hcs : s.cs = .asserted)
    (hb : s.wfb.read 0 = commandByte 0x80#8 v) (hs : s.seq = .frameReady) :
    execWireFrameMode v s = .next s.sendFrame := by
  rw [execWireFrameMode, whenRunning_of_running hf (by simp [hs]), if_pos ⟨hcs, hb⟩, if_pos hs]

/-- WIRE_FRAME_MODE at the engine's byte 0. -/
theorem execWireFrameMode_of_byteZero {s : State} {v : Bit} (hf : s.fault = none) (hcs : s.cs = .asserted)
    (hb : s.wfb.read 0 = commandByte 0x80#8 v) (hs : s.seq = .idle) (hq : s.slot = .inFlight) (ht : s.txi = 0) :
    execWireFrameMode v s = .next s.engineByteStep := by
  rw [execWireFrameMode, whenRunning_of_running hf (by simp [hs]), if_pos ⟨hcs, hb⟩, if_neg (by simp [hs]),
    if_pos ⟨hs, hq, ht⟩]

/-- WIRE_CLEAR at CLEAR's transmit step. -/
theorem execWireClear_of_clearReady {s : State} {v : Bit} (hf : s.fault = none) (hcs : s.cs = .asserted) (hv : s.v = v)
    (hs : s.seq = .clearReady) : execWireClear v s = .next s.sendClear := by
  rw [execWireClear, whenRunning_of_running hf (by simp [hs]), if_pos ⟨hcs, hv, hs⟩]

/-! ### The obligations -/

/-- Settles O18: each answer is read by its kind. -/
theorem blockingTransmitContract : Obligations.BlockingTransmitContract := by
  intro s buf n sent
  refine ⟨rfl, txSent_le n _, fun k r htx => ?_, fun k htx => ?_⟩
  · have hblocking : s.txBlocking buf n = sent (txSent n (.returns k r)) := htx ▸ rfl
    rw [hblocking, htx]
    refine ⟨rfl, fun hr => by rw [hr, txSent_full], fun hk hr => ?_⟩
    rw [txSent_of_legal hk hr]
    exact ⟨rfl, rfl⟩
  · have hblocking : s.txBlocking buf n = sent (txSent n (.stalls k)) := htx ▸ rfl
    rw [hblocking, htx]
    refine ⟨rfl, fun hk => ?_⟩
    rw [txSent, Nat.min_eq_left hk]
    exact ⟨rfl, rfl⟩

/-- Settles O24. -/
theorem rejectedSubmissionEitherWay : Obligations.RejectedSubmissionEitherWay := fun _ => ⟨rfl, rfl⟩

/-- Settles O27: the bytes that are left, and then the completion. -/
theorem engineRunsToCompletion : Obligations.EngineRunsToCompletion := fun _ hr hq ht hm ha =>
  reaches_done hr hq hm ht ha

/-- Settles O29: both paths prepare the same frame, and the events they differ in are hidden from the panel. -/
theorem asyncPathEqualsWrite : Obligations.AsyncPathEqualsWrite := by
  intro s pix hr hl hq hm hp hacc htx
  exact ⟨_, _, reaches_asyncPath ⟨hr.noFault, hr.between⟩ hl hq hm hp hacc rfl,
    State.reaches_one.mpr (step_write ⟨hr.noFault, hr.between⟩ hl hq hp htx rfl), hr.noFault, hr.noFault, rfl, rfl, rfl,
    hq.symm, panelTrace_async _ _ (panelTrace_tx _)⟩

/-- Settles O33: under the premise the drawn point is `TXI` and no signal comes, so nothing stands between the two events. -/
theorem effectiveCancelStopsTheTransfer : Obligations.EffectiveCancelStopsTheTransfer := by
  intro s hr hl hq ⟨hstop, hsignal⟩
  obtain ⟨-, hopened, -⟩ := closeResult s hr
  obtain ⟨-, -, hinFlight⟩ := hopened hl
  refine ⟨_, hinFlight hq, hr.noFault, rfl, rfl, rfl, ?_⟩
  simp [hstop, hsignal]

/-- Settles O34: WRITE from its transmit step on, the engine's byte step, or the refusal. -/
theorem wireFrameModeRunsWhereEmitted : Obligations.WireFrameModeRunsWhereEmitted := by
  intro s v hf
  refine ⟨fun hcs hb hs => ⟨_, execWireFrameMode_of_frameReady hf hcs hb hs, fun k r htx => sendFrame_of_returns htx,
    fun k htx => sendFrame_of_stalls htx⟩, fun hcs hb hs hq ht => ?_, fun hs hnot => ?_⟩
  · refine (execWireFrameMode_of_byteZero hf hcs hb hs hq ht).trans ?_
    simp [State.engineByteStep, State.emit, ht, hb]
  · rw [exec, execWireFrameMode, whenRunning_of_running hf hs]
    by_cases hdue : s.cs = .asserted ∧ s.wfb.read eaMode = commandByte Config.cmdWrite v
    · obtain ⟨hwrite, hengine⟩ | hcs | hb := hnot
      · rw [if_pos hdue, if_neg hwrite, if_neg (by tauto)]
      · exact absurd hdue.1 hcs
      · exact absurd hdue.2 hb
    · rw [if_neg hdue]

/-- Settles O35: CLEAR from its transmit step on, or the refusal. -/
theorem wireClearRunsWhereEmitted : Obligations.WireClearRunsWhereEmitted := by
  intro s v hf
  refine ⟨fun hcs hv hs => ⟨_, execWireClear_of_clearReady hf hcs hv hs, fun k r htx => hv ▸ sendClear_of_returns htx,
    fun k htx => hv ▸ sendClear_of_stalls htx⟩, fun hs hnot => ?_⟩
  have hdue : ¬ (s.cs = .asserted ∧ s.v = v ∧ s.seq = .clearReady) := by tauto
  exact (whenRunning_of_running hf hs _).trans (if_neg hdue)

/-- Settles O36: after the preparation the byte is due, and the row is the rest of the command. -/
theorem commandsPassThroughTheWireRows : Obligations.CommandsPassThroughTheWireRows := by
  intro s pix hr hl hq hm
  refine ⟨fun hp => ?_, ?_⟩
  · exact (hostCommand_of_pixels hr hl hq (.inl rfl) hp).trans
      (execWireFrameMode_of_frameReady (s := { s.prepareFrame pix with seq := .frameReady }) hr.noFault rfl
        (read_framed_mode hm pix) rfl).symm
  · exact (hostCommand_of_opened_empty hr hl hq (.inr (.inr rfl))).trans
      (execWireClear_of_clearReady (s := { s.vcomToggle.csAssertStep with seq := .clearReady }) hr.noFault rfl rfl rfl).symm

end Sys2Proof.Machine
end

section
/-! PROOFS. The premises of R147 at work (42_transfer_state_machine.md R147, R159; 60_exceptions.md R202, R203, R210): what a
step can report under `TransportReliable`, and the end of a transfer in flight under `TransportLive`. Each is a statement about
one step, carried along the run. -/

namespace Sys2Proof.Machine

/-- A step is taken only by a running block. -/
theorem step_next_running {s t : State} (h : step s = .next t) : s.fault = none ∧ s.seq ≠ .stalled := by
  obtain ⟨k, hk⟩ := step_gated s
  obtain ⟨hf, hs, -⟩ := whenRunning_next (hk.symm.trans h)
  exact ⟨hf, hs⟩

/-! ### No error is reported under `TransportReliable` -/

/-- From `s` to `t` no transfer has hung, and of the statuses added none is an error of the transport. -/
def ReportsNoError (s t : State) : Prop :=
  t.seq ≠ .stalled ∧ ∃ new, t.responses = s.responses ++ new ∧ ∀ st ∈ new, st = .ok ∨ st = .setupError

section Reports

variable {s t u : State}

theorem ReportsNoError.of_same (hs : t.seq ≠ .stalled) (h : t.responses = s.responses) : ReportsNoError s t :=
  ⟨hs, [], by rw [h, List.append_nil], by simp⟩

theorem ReportsNoError.of_status (hs : t.seq ≠ .stalled) {st : Status} (h : t.responses = s.responses ++ [st])
    (hst : st = .ok ∨ st = .setupError) : ReportsNoError s t :=
  ⟨hs, [st], h, by simpa using hst⟩

theorem ReportsNoError.trans (h : ReportsNoError s t) (h' : ReportsNoError t u) : ReportsNoError s u := by
  obtain ⟨-, new, hnew, hok⟩ := h
  obtain ⟨hs, new', hnew', hok'⟩ := h'
  refine ⟨hs, new ++ new', by rw [hnew', hnew, List.append_assoc], fun st hst => ?_⟩
  exact (List.mem_append.mp hst).elim (hok st) (hok' st)

end Reports

/-- A blocking write that an instruction makes is made whatever else is on the agenda. -/
theorem writesBlocking_of_taken {i : Instr} {s : State} {rest : List Move} {n : Nat}
    (h : writesBlocking i { s with agenda := rest } n) : writesBlocking i s n := by
  cases i with
  | write pix =>
    obtain ⟨hr, h⟩ := h
    exact ⟨⟨hr.noFault, hr.between⟩, h⟩
  | clear =>
    obtain ⟨hr, h⟩ := h
    exact ⟨⟨hr.noFault, hr.between⟩, h⟩
  | _ => exact h

/-- A reliable write does not stall. -/
theorem not_stalls_of_reliable {n k : Nat} {a : TxAnswer} (h : txReliable n a) : a ≠ .stalls k := by
  obtain ⟨k', rfl⟩ := h
  nofun

/-- A reliable WRITE returns `OK`. -/
theorem writeStatus_of_reliable {k : Nat} {r : Int} (h : txReliable 12482 (.returns k r)) : writeStatus r = .ok := by
  obtain ⟨k', e⟩ := h
  cases e
  rfl

/-- Every end of an instruction, where its blocking write reports the full length and its submission is accepted. -/
theorem State.Ends.reportsNoError {s t : State} {i : Instr} (h : s.Ends i t) (hf : s.fault = none) (hs : s.seq ≠ .stalled)
    (hwrite : ∀ n, writesBlocking i s n → txReliable n s.nextAnswers.tx)
    (hsubmit : ∀ pix, i = .writeAsyncBegin pix → s.seq = .idle → s.life = .opened → s.slot = .empty → pix.length = 12000 →
      s.nextAnswers.accepted = true) : ReportsNoError s t := by
  cases h with
  | initOpenFails | initConfigureFails | initClaimCsFails | initClaimDispFails => exact .of_status hs rfl (.inr rfl)
  | initSucceeds | beginAccepted | endRetires | closeEmpty | closeDone | closeInFlight =>
    exact .of_status hs rfl (.inl rfl)
  | clearReturns | wireClearReturns => exact .of_status nofun rfl (.inl rfl)
  | writeReturns pix hs hl hq hp k r htx =>
    have hfull := hwrite 12482 ⟨⟨hf, hs⟩, hl, hq, hp, rfl⟩
    exact .of_status nofun rfl (.inl (writeStatus_of_reliable (htx ▸ hfull)))
  | wireFrameReturns v hs hcs hb k r htx =>
    have hfull := hwrite 12482 ⟨hf, hcs, hb, hs, rfl⟩
    exact .of_status nofun rfl (.inl (writeStatus_of_reliable (htx ▸ hfull)))
  | writeHangs pix hs hl hq hp k htx =>
    exact absurd htx (not_stalls_of_reliable (hwrite 12482 ⟨⟨hf, hs⟩, hl, hq, hp, rfl⟩))
  | clearHangs hs hl hq k htx => exact absurd htx (not_stalls_of_reliable (hwrite 2 ⟨⟨hf, hs⟩, hl, hq, rfl⟩))
  | wireFrameHangs v hs hcs hb k htx => exact absurd htx (not_stalls_of_reliable (hwrite 12482 ⟨hf, hcs, hb, hs, rfl⟩))
  | wireClearHangs v hs hcs hv k htx => exact absurd htx (not_stalls_of_reliable (hwrite 2 ⟨hf, hcs, hv, hs, rfl⟩))
  | beginRejected pix hs hl hq hp ha =>
    rw [hsubmit pix rfl hs hl hq hp] at ha
    cases ha

/-- One step of a reliable run. -/
theorem TransportReliable.step_reportsNoError {s t : State} (hr : TransportReliable s) (h : step s = .next t) :
    ReportsNoError s t := by
  obtain ⟨hf, hs⟩ := step_next_running h
  obtain ⟨-, rfl⟩ | ⟨m, rest, ha, ⟨p, i, rfl, hd, hi⟩ | ⟨-, -, rfl⟩ | ⟨-, -, -, -, -, rfl⟩ | ⟨-, -, -, -, rfl⟩⟩ :=
    step_next_decoded h
  · exact .of_same hs rfl
  · have htakes : s.Takes i := ⟨p, rest, ha, hd⟩
    have hzero : s.Reaches 0 s := State.reaches_zero.mpr rfl
    obtain ⟨-, -, f, rfl⟩ | he | ⟨-, -, -, -, rfl⟩ := exec_next hi
    · exact .of_same hs rfl
    · refine he.reportsNoError hf hs (fun n hw => ?_) fun pix hpix hidle hl hq hp => ?_
      · exact hr.fullReports 0 s n hzero ⟨i, htakes, writesBlocking_of_taken hw⟩
      · exact hr.submissionsAccepted 0 s hzero ⟨⟨hf, hidle⟩, hl, hq, pix, hp, hpix ▸ htakes⟩
    · exact .of_same hs rfl
  · exact .of_same hs rfl
  · exact .of_same hs rfl
  · exact .of_same hs rfl

/-! ### The end of a transfer in flight -/

/-- With a transfer in flight an instruction that runs past its checks leaves it in flight, or is the CLOSE that cancels it. -/
theorem State.Ends.of_inFlight {s t : State} {i : Instr} (h : s.Ends i t) (hs : s.seq = .idle) (hq : s.slot = .inFlight) :
    (t.slot = .inFlight ∧ t.seq = .idle) ∨ (t.slot = .empty ∧ t.life = .closed) := by
  cases h with
  | initOpenFails | initConfigureFails | initClaimCsFails | initClaimDispFails | initSucceeds => exact .inl ⟨hq, hs⟩
  | closeInFlight => exact .inr ⟨rfl, rfl⟩
  | _ => simp_all

/-- Everything a step can do to a transfer in flight, where the agenda has a move. -/
theorem step_of_inFlight {s t : State} {m : Move} {rest : List Move} (hr : s.Ready) (hq : s.slot = .inFlight)
    (ha : s.agenda = m :: rest) (h : step s = .next t) :
    t.agenda = rest ∧ ((t.slot = .inFlight ∧ t.seq = .idle) ∨ (t.slot = .empty ∧ t.life = .closed) ∨
      (t.slot = .done ∧ s.Completes ∧ t.txi = s.txi)) := by
  obtain ⟨hnil, -⟩ | ⟨m', rest', ha', hstep⟩ := step_next h
  · simp [ha] at hnil
  cases ha.symm.trans ha'
  obtain ⟨i, hi⟩ | ⟨-, -, rfl⟩ | ⟨-, -, -, -, -, rfl⟩ | ⟨rfl, -, -, -, rfl⟩ := hstep
  · obtain ⟨-, -, f, rfl⟩ | he | ⟨-, -, -, -, rfl⟩ := exec_next hi
    · exact ⟨rfl, .inl ⟨hq, hr.between⟩⟩
    · exact ⟨he.fault_agenda.2, (he.of_inFlight hr.between hq).imp_right .inl⟩
    · exact ⟨rfl, .inl ⟨hq, hr.between⟩⟩
  · exact ⟨rfl, .inl ⟨hq, hr.between⟩⟩
  · exact ⟨rfl, .inl ⟨hq, hr.between⟩⟩
  · exact ⟨rfl, .inr (.inr ⟨rfl, ⟨hr, hq, rest, ha⟩, rfl⟩)⟩

/-- A run that goes on for ever goes on for ever after its first step. -/
theorem goes_on_after {s t : State} (h : step s = .next t) (hon : ∀ n, ∃ u, s.Reaches n u) (n : Nat) :
    ∃ u, t.Reaches n u := by
  obtain ⟨u, hu⟩ := hon (n + 1)
  obtain ⟨t', h', hu⟩ := State.reaches_succ.mp hu
  cases h.symm.trans h'
  exact ⟨u, hu⟩

/-- What is to be shown of a transfer in flight in `s`, within `k` steps: the first point at which it is no longer in flight. -/
def EndsWithin (s : State) (k : Nat) : Prop :=
  ∃ n ≤ k, ∃ t, s.Reaches n t ∧ (∀ m < n, ∀ u, s.Reaches m u → u.slot = .inFlight) ∧
    (t.slot = .done ∨ (t.slot = .empty ∧ t.life = .closed)) ∧ (TransportReliable s → t.slot = .done → t.txi = 12482)

/-- The transfer ends with the next step. -/
theorem EndsWithin.of_step {s t : State} {k : Nat} (hq : s.slot = .inFlight) (h : step s = .next t)
    (ht : t.slot = .done ∨ (t.slot = .empty ∧ t.life = .closed))
    (hall : TransportReliable s → t.slot = .done → t.txi = 12482) : EndsWithin s (k + 1) := by
  refine ⟨1, by omega, t, State.reaches_one.mpr h, fun m hm u hu => ?_, ht, hall⟩
  obtain rfl : m = 0 := by omega
  exact State.reaches_zero.mp hu ▸ hq

/-- The transfer is in flight after the next step, and ends later. -/
theorem EndsWithin.after_step {s t : State} {k : Nat} (hq : s.slot = .inFlight) (h : step s = .next t)
    (ht : EndsWithin t k) : EndsWithin s (k + 1) := by
  obtain ⟨n, hn, u, hu, hbefore, hend, hall⟩ := ht
  refine ⟨n + 1, by omega, u, State.reaches_succ.mpr ⟨t, h, hu⟩, fun m hm w hw => ?_, hend, fun hr => hall (hr.of_step h)⟩
  cases m with
  | zero => exact State.reaches_zero.mp hw ▸ hq
  | succ m =>
    obtain ⟨t', h', hw⟩ := State.reaches_succ.mp hw
    cases h.symm.trans h'
    exact hbefore m (by omega) w hw

/-- R159, by induction on the agenda: fairness shuts out an agenda that is used up with the transfer in flight. -/
theorem endsWithin_agenda {s : State} (hr : s.Ready) (hq : s.slot = .inFlight) (hlive : TransportLive s)
    (hon : ∀ n, ∃ t, s.Reaches n t) : EndsWithin s s.agenda.length := by
  induction ha : s.agenda generalizing s with
  | nil =>
    obtain ⟨m, -, hfair⟩ := hlive.engineFair 0
    obtain ⟨t, ht⟩ := hon m
    obtain rfl := ht.of_idle ha
    exact absurd (hfair t ht ⟨hr, hq⟩) (not_engineSteps_of_idle ha)
  | cons m rest ih =>
    obtain ⟨t, ht⟩ := hon 1
    have h := State.reaches_one.mp ht
    obtain ⟨hrest, ⟨hflight, hidle⟩ | hclosed | ⟨hdone, hcompletes, htxi⟩⟩ := step_of_inFlight hr hq ha h
    · have hon' := goes_on_after h hon
      obtain ⟨u, hu⟩ := hon' 1
      have hf := (step_next_running (State.reaches_one.mp hu)).1
      exact .after_step hq h (ih ⟨hf, hidle⟩ hflight (hlive.of_step h) hon' hrest)
    · exact .of_step hq h (.inr hclosed) fun _ hdone => by cases hdone.symm.trans hclosed.1
    · refine .of_step hq h (.inl hdone) fun hreliable _ => htxi.trans ?_
      exact hreliable.sentBeforeCompletion 0 s (State.reaches_zero.mpr rfl) hcompletes

/-! ### The obligations -/

/-- Settles O55: each step of a reliable run reports no error, and the rest of the run is reliable. -/
theorem reliableTransportReportsNoError : Obligations.ReliableTransportReportsNoError := by
  intro s hr hs n t h
  have hkept : TransportReliable t ∧ ReportsNoError s t := State.Reaches.keeps
    (P := fun u => TransportReliable u ∧ ReportsNoError s u)
    (fun ⟨hu, hok⟩ hstep => ⟨hu.of_step hstep, hok.trans (hu.step_reportsNoError hstep)⟩) ⟨hr, .of_same hs rfl⟩ h
  exact hkept.2

/-- Settles O56. -/
theorem liveTransfersEnd : Obligations.LiveTransfersEnd := fun _ => endsWithin_agenda

end Sys2Proof.Machine
end
